-- ==== Sys2Proof/Word.lean ====
section
/-! DEFINITION. The word types: 64-bit registers and addresses, 32-bit instruction words, bytes. -/

namespace Sys2Proof

/-- A 64-bit word: a general register, the program counter, the value of ID_AA64ISAR1_EL1
(R10, R37, R38). Bit 0 is the least significant bit (R7). -/
abbrev Word := BitVec 64

/-- One byte of memory. -/
abbrev Byte := BitVec 8

/-- One instruction word, always 32 bits (R72, R77). -/
abbrev InstrWord := BitVec 32

end Sys2Proof
end

