-- ==== Sys2Proof/Config.lean ====
section
/-! DEFINITION. What an implementation fixes (R6): the configuration parameters of a PE, and the one
value the spec leaves open that a step can meet (PcWrap, R38). -/

namespace Sys2Proof

/-- The four Exception levels, the values of PSTATE.EL (R109). -/
inductive EL where
  | el0 | el1 | el2 | el3
  deriving DecidableEq, Repr

/-- The parameter ImplementedELs of R6: a subset of EL0 to EL3, one membership bit per level. -/
structure ELSet where
  el0 : Bool
  el1 : Bool
  el2 : Bool
  el3 : Bool
  deriving DecidableEq, Repr

/-- Membership in ImplementedELs. -/
def ELSet.has (e : ELSet) : EL → Bool
  | .el0 => e.el0
  | .el1 => e.el1
  | .el2 => e.el2
  | .el3 => e.el3

/-- The parameter ArchVersion of R6. The last constructor is "v8.7 (or later)": R31's last column. -/
inductive ArchVersion where
  | v8_0 | v8_1 | v8_2 | v8_3 | v8_4 | v8_5 | v8_6 | v8_7orLater
  deriving DecidableEq, Repr

/-- The minor version number, by which "From Armv8.x" compares versions (R31). -/
def ArchVersion.minor : ArchVersion → Nat
  | .v8_0 => 0
  | .v8_1 => 1
  | .v8_2 => 2
  | .v8_3 => 3
  | .v8_4 => 4
  | .v8_5 => 5
  | .v8_6 => 6
  | .v8_7orLater => 7

/-- The configuration of one PE: the parameters of R6, fixed for the machine's whole life (R42, R113).
None of them is changed by any step. -/
structure PEConfig where
  /-- The value every successful read of ID_AA64ISAR1_EL1 returns (R6, R42). -/
  V : Word
  archVersion : ArchVersion
  /-- "Advanced SIMD or Floating-point is implemented" (R25, R26). -/
  haveSIMDorFP : Bool
  /-- "Advanced SIMD and SVE are both implemented" (R16, R18). -/
  haveSIMDandSVE : Bool
  /-- ID_AA64ZFR0_EL1.I8MM (R16). -/
  zfr0I8MM : BitVec 4
  /-- ID_AA64ZFR0_EL1.BF16 (R18). -/
  zfr0BF16 : BitVec 4
  /-- Whether DGH has an effect in preventing the merging of memory accesses (R17). -/
  dghHasEffect : Bool
  /-- IsFeatureImplemented(FEAT_IDST) (R82 to R84). -/
  haveIDST : Bool
  implementedELs : ELSet
  deriving DecidableEq, Repr

/-- The OPEN parameter PcWrap (R38, D8): what the program counter becomes when `pc + 4` passes the top
of the 64-bit address space. No body: nothing may be proved of its value. DESIGN CHOICE, safe
(notes/assumptions/5.md). -/
opaque Config.pcWrap : Word → Word

end Sys2Proof
end

