-- ==== Sys2Proof/Machine/Fields.lean ====
section
/-! DEFINITION. The layout of ID_AA64ISAR1_EL1: sixteen 4-bit fields (R10 to R13). -/

namespace Sys2Proof.Machine

/-- The sixteen fields, most significant first (R11). -/
inductive IdField where
  | LS64 | XS | I8MM | DGH | BF16 | SPECRES | SB | FRINTTS
  | GPI | GPA | LRCPC | FCMA | JSCVT | API | APA | DPB
  deriving DecidableEq, Repr

/-- The fields in R11's order, most significant first. -/
def IdField.all : List IdField :=
  [.LS64, .XS, .I8MM, .DGH, .BF16, .SPECRES, .SB, .FRINTTS,
   .GPI, .GPA, .LRCPC, .FCMA, .JSCVT, .API, .APA, .DPB]

/-- The lowest bit of a field: the `lo` of its "bits [hi:lo]" (R11, R14 to R29). -/
def IdField.lo : IdField → Nat
  | .LS64 => 60
  | .XS => 56
  | .I8MM => 52
  | .DGH => 48
  | .BF16 => 44
  | .SPECRES => 40
  | .SB => 36
  | .FRINTTS => 32
  | .GPI => 28
  | .GPA => 24
  | .LRCPC => 20
  | .FCMA => 16
  | .JSCVT => 12
  | .API => 8
  | .APA => 4
  | .DPB => 0

/-- The highest bit of a field: every field is four bits wide (R11, R13). -/
def IdField.hi (f : IdField) : Nat := f.lo + 3

/-- `V.NAME` of R11: the slice of V the field occupies. -/
def idField (V : Word) (f : IdField) : BitVec 4 := V.extractLsb' f.lo 4

/-- A field read as the unsigned number R13 says it is. -/
def idFieldNat (V : Word) (f : IdField) : Nat := (idField V f).toNat

/-- The register value R11's concatenation formula builds from sixteen field values. -/
def assembleId (g : IdField → BitVec 4) : Word :=
  g .LS64 ++ g .XS ++ g .I8MM ++ g .DGH ++ g .BF16 ++ g .SPECRES ++ g .SB ++ g .FRINTTS ++
  g .GPI ++ g .GPA ++ g .LRCPC ++ g .FCMA ++ g .JSCVT ++ g .API ++ g .APA ++ g .DPB

/-- The values a field's table defines; every other value of the field is reserved (R13 to R29). -/
def definedValues : IdField → List Nat
  | .LS64 => [0, 1, 2, 3]
  | .LRCPC => [0, 1, 2]
  | .API => [0, 1, 2, 3, 4, 5]
  | .APA => [0, 1, 2, 3, 4, 5]
  | .DPB => [0, 1, 2]
  | .XS => [0, 1]
  | .I8MM => [0, 1]
  | .DGH => [0, 1]
  | .BF16 => [0, 1]
  | .SPECRES => [0, 1]
  | .SB => [0, 1]
  | .FRINTTS => [0, 1]
  | .GPI => [0, 1]
  | .GPA => [0, 1]
  | .FCMA => [0, 1]
  | .JSCVT => [0, 1]

end Sys2Proof.Machine
end

