-- ==== Sys2Proof/Machine/ConfigRules.lean ====
section
/-! DEFINITION. Well-formedness of a configuration: the six clauses of R30 and the permitted values of
R31, the latter twice: as R31's collected table, which the model uses, and as the sentences of R14 to
R29 it was collected from. -/

namespace Sys2Proof.Machine

/-- R31's table row by row: the values of a field permitted at a version, for every field but API and
APA from v8.6 (see `addressAuthPair`). A cell "any defined" is the field's defined values (D4).
`simd` is HaveSIMDorFP. -/
def permittedValues (a : ArchVersion) (simd : Bool) : IdField → List Nat
  | .LS64 => if 7 ≤ a.minor then [1, 2, 3] else definedValues .LS64
  | .XS => if 7 ≤ a.minor then [1] else definedValues .XS
  | .I8MM => if 6 ≤ a.minor then [1] else definedValues .I8MM
  | .DGH => [0, 1]
  | .BF16 => if 6 ≤ a.minor then [1] else definedValues .BF16
  | .SPECRES => if 5 ≤ a.minor then [1] else [0, 1]
  | .SB => if 5 ≤ a.minor then [1] else [0, 1]
  | .FRINTTS => if 5 ≤ a.minor then [1] else definedValues .FRINTTS
  | .GPI => if 3 ≤ a.minor then [0, 1] else definedValues .GPI
  | .GPA => if 3 ≤ a.minor then [0, 1] else definedValues .GPA
  | .LRCPC =>
    if 4 ≤ a.minor then [2] else if a.minor = 3 then [1, 2]
    else if a.minor = 2 then [0, 1, 2] else definedValues .LRCPC
  | .FCMA => if 3 ≤ a.minor then (if simd then [1] else [0]) else [0]
  | .JSCVT => if 3 ≤ a.minor then (if simd then [1] else [0]) else [0]
  | .API => definedValues .API
  | .APA => definedValues .APA
  | .DPB => if 5 ≤ a.minor then [2] else if 2 ≤ a.minor then [1, 2] else definedValues .DPB

/-- The pair rule of R31 for API and APA from Armv8.6 (90_conflicts.md C6): exactly one is non-zero and
that one is 3, 4 or 5. -/
def addressAuthPair (V : Word) : Bool :=
  (idFieldNat V .API == 0 && [3, 4, 5].contains (idFieldNat V .APA)) ||
  (idFieldNat V .APA == 0 && [3, 4, 5].contains (idFieldNat V .API))

/-- One "permitted values" sentence: the first version it names, and what it permits with and without
HaveSIMDorFP. -/
structure PermitSentence where
  since : Nat
  withSIMD : List Nat
  withoutSIMD : List Nat
  deriving DecidableEq, Repr

/-- The "permitted value" sentences quoted in R14 to R29, oldest first, one entry per sentence (the two
conditional sentences of FCMA and of JSCVT share an entry). API's and APA's single sentence is
`addressAuthPair`'s. -/
def permitSentences : IdField → List PermitSentence
  | .LS64 => [⟨7, [1, 2, 3], [1, 2, 3]⟩]
  | .XS => [⟨7, [1], [1]⟩]
  | .I8MM => [⟨6, [1], [1]⟩]
  | .DGH => [⟨0, [0, 1], [0, 1]⟩]
  | .BF16 => [⟨6, [1], [1]⟩]
  | .SPECRES => [⟨0, [0, 1], [0, 1]⟩, ⟨5, [1], [1]⟩]
  | .SB => [⟨0, [0, 1], [0, 1]⟩, ⟨5, [1], [1]⟩]
  | .FRINTTS => [⟨5, [1], [1]⟩]
  | .GPI => [⟨3, [0, 1], [0, 1]⟩]
  | .GPA => [⟨3, [0, 1], [0, 1]⟩]
  | .LRCPC => [⟨2, [0, 1, 2], [0, 1, 2]⟩, ⟨3, [1, 2], [1, 2]⟩, ⟨4, [2], [2]⟩]
  | .FCMA => [⟨0, [0], [0]⟩, ⟨3, [1], [0]⟩]
  | .JSCVT => [⟨0, [0], [0]⟩, ⟨3, [1], [0]⟩]
  | .API => []
  | .APA => []
  | .DPB => [⟨2, [1, 2], [1, 2]⟩, ⟨5, [2], [2]⟩]

/-- R31's reading of the sentences: each covers its version and every later one until the field's next
sentence, and a version no sentence covers permits every defined value (D3, D4). -/
def permittedBySentences (a : ArchVersion) (simd : Bool) (f : IdField) : List Nat :=
  match (permitSentences f).reverse.find? (fun s => s.since ≤ a.minor) with
  | some s => if simd then s.withSIMD else s.withoutSIMD
  | none => definedValues f

/-- The six clauses of R30, in its order. -/
inductive WfClause where
  /-- Clause 1: every field holds a defined value. -/
  | definedFields
  /-- Clause 2: not both GPI and GPA non-zero. -/
  | genericExclusive
  /-- Clause 3: not both API and APA non-zero. -/
  | addressExclusive
  /-- Clause 4: I8MM and BF16 agree with ID_AA64ZFR0_EL1 when Advanced SIMD and SVE are implemented. -/
  | zfr0Agrees
  /-- Clause 5: DGH is zero when the DGH instruction has no effect. -/
  | dghEffect
  /-- Clause 6: every field is permitted at ArchVersion (R31). -/
  | permittedAtVersion
  deriving DecidableEq, Repr

def WfClause.all : List WfClause :=
  [.definedFields, .genericExclusive, .addressExclusive, .zfr0Agrees, .dghEffect, .permittedAtVersion]

/-- What each clause of R30 asks of a configuration. -/
def WfClause.holds (c : PEConfig) : WfClause → Bool
  | .definedFields => IdField.all.all fun f => (definedValues f).contains (idFieldNat c.V f)
  | .genericExclusive => !(idFieldNat c.V .GPI != 0 && idFieldNat c.V .GPA != 0)
  | .addressExclusive => !(idFieldNat c.V .API != 0 && idFieldNat c.V .APA != 0)
  | .zfr0Agrees =>
    !c.haveSIMDandSVE || (idField c.V .I8MM == c.zfr0I8MM && idField c.V .BF16 == c.zfr0BF16)
  | .dghEffect => c.dghHasEffect || idFieldNat c.V .DGH == 0
  | .permittedAtVersion =>
    (IdField.all.all fun f =>
      (permittedValues c.archVersion c.haveSIMDorFP f).contains (idFieldNat c.V f)) &&
    (decide (c.archVersion.minor < 6) || addressAuthPair c.V)

/-- The first clause of R30 a configuration breaks, if any. -/
def failingClause (c : PEConfig) : Option WfClause := WfClause.all.find? fun k => !k.holds c

/-- R30's `WF`: all six clauses hold. -/
def configWf (c : PEConfig) : Bool := (failingClause c).isNone

end Sys2Proof.Machine
end

