-- ==== Sys2Proof/Syntax.lean ====
section
/-! DEFINITION. The instructions: one constructor per row of spec/opcode_table.json (R78). -/

namespace Sys2Proof

/-- The two instructions of the opcode table. `t` is the register number Rt of R73, 0 to 31; 31 names
the zero register XZR. -/
inductive Instr where
  /-- `MRS <Xt>, ID_AA64ISAR1_EL1`, the read (R70, R80, R81). -/
  | mrsIdAa64isar1El1 (t : Nat)
  /-- `MSR ID_AA64ISAR1_EL1, <Xt>`, the write form the source does not list (R75). -/
  | msrIdAa64isar1El1 (t : Nat)
  deriving DecidableEq, Repr

/-- The register number an instruction names. -/
def Instr.regNum : Instr → Nat
  | .mrsIdAa64isar1El1 t => t
  | .msrIdAa64isar1El1 t => t

end Sys2Proof
end

