-- ==== Sys2Proof/WellFormed.lean ====
section
/-! DEFINITION. When an instruction, and a configuration, is well-formed. -/

namespace Sys2Proof

/-- An instruction is well-formed when its register number fits the five bits of Rt (R72, R80:
"`t` in 0..31"). -/
def Instr.wellFormed : Instr → Bool
  | .mrsIdAa64isar1El1 t => decide (t < 32)
  | .msrIdAa64isar1El1 t => decide (t < 32)

/-- A configuration is well-formed when it meets R30 (its six clauses are
`Sys2Proof.Machine.WfClause.holds`). -/
def PEConfig.wellFormed (c : PEConfig) : Bool := Sys2Proof.Machine.configWf c

end Sys2Proof
end

