-- ==== Sys2Proof/Decode.lean ====
section
/-! DEFINITION. Decoding and encoding (R70 to R79). The instruction word is read by the fields of R72's
layout and the selector values of R71, and not by the opcode table's mask and match, so that agreement
with the table is a statement about the decoder. -/

namespace Sys2Proof

/-- Why a list of bytes is no instruction of this hardware. -/
inductive DecodeError where
  /-- fewer than the four bytes of an instruction (R77) -/
  | truncated
  /-- "not this hardware's instruction" (R76) -/
  | notThisHardware (w : InstrWord)
  deriving DecidableEq, Repr

/-- The five selector values that address a system register (R45, R71). -/
structure SysRegSelector where
  op0 : BitVec 2
  op1 : BitVec 3
  crn : BitVec 4
  crm : BitVec 4
  op2 : BitVec 3
  deriving DecidableEq, Repr

/-- The system-register address of ID_AA64ISAR1_EL1: R71's table. -/
def idAa64isar1Selector : SysRegSelector :=
  ⟨0b11#2, 0b000#3, 0b0000#4, 0b0110#4, 0b001#3⟩

/-- Bits 31:22 of a register-form MRS or MSR (R72). PRESUMED by the spec itself: the word layout is
general knowledge (D6). -/
def sysRegFixed : BitVec 10 := 0b1101010100#10

/-- The fields of R72's layout. -/
def wordFixed (w : InstrWord) : BitVec 10 := w.extractLsb' 22 10
/-- `L`, bit 21: 1 for a read (MRS), 0 for a write (MSR). -/
def wordL (w : InstrWord) : BitVec 1 := w.extractLsb' 21 1
/-- The selector fields: op0 20:19, op1 18:16, CRn 15:12, CRm 11:8, op2 7:5. -/
def wordSelector (w : InstrWord) : SysRegSelector :=
  ⟨w.extractLsb' 19 2, w.extractLsb' 16 3, w.extractLsb' 12 4, w.extractLsb' 8 4, w.extractLsb' 5 3⟩
/-- `Rt`, bits 4:0. -/
def wordRt (w : InstrWord) : BitVec 5 := w.extractLsb' 0 5

/-- The instruction a 32-bit word stands for: the read when L is 1, the write form when L is 0, and
nothing of this hardware for any other word (R71, R72, R75, R76). -/
def decodeWord (w : InstrWord) : Except DecodeError Instr :=
  if wordFixed w = sysRegFixed ∧ wordSelector w = idAa64isar1Selector then
    if wordL w = 1#1 then .ok (.mrsIdAa64isar1El1 (wordRt w).toNat)
    else .ok (.msrIdAa64isar1El1 (wordRt w).toNat)
  else .error (.notThisHardware w)

/-- The word whose four bytes stand at ascending addresses, least significant first (R52, R79, D13). -/
def wordOfBytes (b0 b1 b2 b3 : Byte) : InstrWord := b3 ++ b2 ++ b1 ++ b0

/-- Decoding a list of bytes: the instruction its first four bytes hold, and the rest. -/
def decode : List Byte → Except DecodeError (Instr × List Byte)
  | b0 :: b1 :: b2 :: b3 :: rest =>
    match decodeWord (wordOfBytes b0 b1 b2 b3) with
    | .ok i => .ok (i, rest)
    | .error e => .error e
  | _ => .error .truncated

/-- R72's layout put together. -/
def sysRegWord (l : BitVec 1) (r : SysRegSelector) (rt : BitVec 5) : InstrWord :=
  sysRegFixed ++ l ++ r.op0 ++ r.op1 ++ r.crn ++ r.crm ++ r.op2 ++ rt

/-- The word of a well-formed instruction (R72, R75). -/
def encode : Instr → InstrWord
  | .mrsIdAa64isar1El1 t => sysRegWord 1#1 idAa64isar1Selector (BitVec.ofNat 5 t)
  | .msrIdAa64isar1El1 t => sysRegWord 0#1 idAa64isar1Selector (BitVec.ofNat 5 t)

/-- The i-th byte of a word as memory holds it, least significant byte first (R79). -/
def wordByte (w : InstrWord) (i : Nat) : Byte := w.extractLsb' (8 * i) 8

/-- The four bytes of a word in ascending address order (R79). -/
def bytesOfWord (w : InstrWord) : List Byte := [wordByte w 0, wordByte w 1, wordByte w 2, wordByte w 3]

/-- The bytes of a well-formed instruction in ascending address order. -/
def encodeBytes (i : Instr) : List Byte := bytesOfWord (encode i)

/-- The word a row of the opcode table stands for when its bits are `w`, every bit above `nbits` zero. -/
def tableWord (nbits w : Nat) : InstrWord := BitVec.ofNat 32 (w % 2 ^ nbits)

/-- What the decoder reads from an opcode-table word (the host's question): the word's bytes as memory
holds them, given to `decode`. -/
def decodeTableWord (nbits w : Nat) : Option Instr :=
  match decode (bytesOfWord (tableWord nbits w)) with
  | .ok (i, _) => some i
  | .error _ => none

end Sys2Proof
end

