-- ==== Sys2Proof/Machine/State.lean ====
section
/-! DEFINITION. The machine's state, its faults and refusals, and the state right after reset. -/

namespace Sys2Proof.Machine

/-- The processor state. The access rule reads only `el` (R36, R39); `nzcv` are the condition flags no
outcome writes (R39, R91) and `daif` the interrupt masks of R43 and R106. PRESUMED: four bits each, as
in the family (notes/assumptions/4.md). -/
structure PState where
  /-- PSTATE.EL, the current Exception level (R36). -/
  el : EL
  /-- N, Z, C, V, most significant first. -/
  nzcv : BitVec 4
  /-- D, A, I, F, most significant first. -/
  daif : BitVec 4
  deriving DecidableEq, Repr

/-- The two one-bit fields of HCR_EL2 the access rule reads (R36, R108), as the executing PE sees them at
the instruction (D11). The source gives the register no width and no positions, so none are modelled. -/
structure HcrEl2 where
  tge : Bool
  tid3 : Bool
  deriving DecidableEq, Repr

/-- The SCTLR_ELx registers (R7, R34). PRESUMED: ELx is EL1, EL2 and EL3 (notes/assumptions/10.md). -/
inductive SctlrLevel where
  | el1 | el2 | el3
  deriving DecidableEq, Repr

/-- The SCTLR_ELx bits R34 names. -/
inductive SctlrBit where
  | EnIA | EnIB | EnDA | EnDB
  deriving DecidableEq, Repr

/-- The single-bit fields of other registers the source names (R34, R40), spelled as printed
(90_conflicts.md C2). -/
inductive PeerBit where
  | tcrEl1TBID | tcrEl1TBID0
  | tcrEl2TBID0 | tcrEl2TBID1 | tcrEl2TBID
  | tcrEl3TBID
  | hcrxFGTnXS | hcrxFnXS
  | sctlr (x : SctlrLevel) (b : SctlrBit)
  deriving DecidableEq, Repr

/-- The eight key registers of R34. -/
inductive ApKey where
  | APIAKeyHi | APIAKeyLo | APIBKeyHi | APIBKeyLo | APDAKeyHi | APDAKeyLo | APDBKeyHi | APDBKeyLo
  deriving DecidableEq, Repr

/-- The registers beside ID_AA64ISAR1_EL1 the source names (R40), as far as it names fields of them. No
instruction of the opcode table reads or writes one; `Machine/Peers.lean` holds R34's rule over them. -/
structure PeerRegs where
  /-- one bit for each `PeerBit`, at `peerBitIndex`; DESIGN CHOICE: the EL2 and EL3 ones are held whether or
  not ImplementedELs has the level (notes/assumptions/10.md) -/
  bits : Vector Bool 20
  /-- the key registers, at `apKeyIndex`; PRESUMED 64 bits each -/
  keys : Vector Word 8
  /-- ACCDATA_EL1 (R14); PRESUMED 64 bits -/
  accdata : Word
  deriving DecidableEq, Repr

/-- The state of one PE. -/
structure State where
  /-- The configuration of R6, ID_AA64ISAR1_EL1's value V among it. No step, reset or other event of the
  model changes it (R41, R42, R43, R113). -/
  cfg : PEConfig
  /-- The general registers x[0] to x[30] (R37). -/
  x : Vector Word 31
  /-- The program counter (R38). -/
  pc : Word
  /-- PSTATE (R36, R39). -/
  pstate : PState
  /-- The value of EL2Enabled() (R36, R110). -/
  el2Enabled : Bool
  /-- HCR_EL2.TGE and HCR_EL2.TID3 (R36). -/
  hcr : HcrEl2
  /-- The other registers the source names (R40). -/
  peers : PeerRegs
  /-- Memory, from which instructions are fetched: address and byte pairs, addresses strictly rising;
  an unlisted address holds no byte (`unlistedByte`). -/
  mem : List Host.Cell
  deriving DecidableEq, Repr

/-- Why a step stops with a fault. Each is safe: nothing is asserted after it (D9). -/
inductive Fault where
  /-- `Trap(target_el, code)` (R9, R101): raised by MRS where R82, R83 and R85 say. Safe. -/
  | systemAccessTrap (target : EL) (code : Nat)
  /-- `Undefined` (R9, R102): raised by MRS where R84 says and by MSR always (R75). Safe. -/
  | undefinedInstr
  /-- The PC alignment fault of a fetch from a misaligned pc (R53). Raised by the fetch. Safe. -/
  | pcAlignment (pc : Word)
  /-- The fetch met an address that holds no byte: the memory map is OPEN (R55, D14) and memory lists
  nothing there. Raised by the fetch. Safe. -/
  | fetchNoByte (addr : Nat)
  /-- An access to a key register that is "not allocated" (R34): 93_implementation_defined.md U8 has a model
  that holds these registers fault there. Raised by `readApKey` and `writeApKey`, by no instruction of the
  table. Safe. -/
  | keyNotAllocated (k : ApKey)
  /-- An access to ACCDATA_EL1 where it is not supported (R14). DESIGN CHOICE (notes/assumptions/10.md): the
  source gives such an access no effect. Raised by `readAccdata` and `writeAccdata`. Safe. -/
  | accdataNotSupported
  /-- An access to an HCRX_EL2 field where the fields are not supported (R15). DESIGN CHOICE
  (notes/assumptions/10.md), as above. Raised by `readPeerBit` and `writePeerBit`. Safe. -/
  | hcrxNotSupported (b : PeerBit)
  deriving DecidableEq, Repr

/-- Why a step is refused. Each is safe: a refused step asserts nothing. -/
inductive Refusal where
  /-- An instruction without a meaning. Raised by no arm of this model. Safe. -/
  | notModelled (mnemonic : String)
  /-- The configuration breaks this clause of R30 (D2). Raised by step before anything else. Safe. -/
  | configNotWellFormed (c : WfClause)
  /-- The bytes fetched are "not this hardware's instruction" (R76). Raised by step. Safe. -/
  | notThisHardware (e : DecodeError)
  deriving DecidableEq, Repr

/-- The outcome of the access rule (R9). -/
inductive AccessOutcome where
  /-- `Return(v)` -/
  | ret (v : Word)
  /-- `Trap(target_el, code)` -/
  | trap (target : EL) (code : Nat)
  /-- `Undefined` -/
  | undefinedAccess
  deriving DecidableEq, Repr

/-- The configuration State.reset carries: the one 95_test_vectors.md section 3 runs its programs on
(V of vector W2, Armv8.5), with section 2.2's default parameters. DESIGN CHOICE, unsafe
(notes/assumptions/2.md). -/
def exampleConfig : PEConfig where
  V := 0x0000011101211012#64
  archVersion := .v8_5
  haveSIMDorFP := true
  haveSIMDandSVE := false
  zfr0I8MM := 0#4
  zfr0BF16 := 0#4
  dghHasEffect := true
  haveIDST := false
  implementedELs := ⟨true, true, true, true⟩

/-- The machine right after reset. The register holds V (R43, R120); every other value the spec leaves
unspecified (R121), and those below are the model's names for them (notes/assumptions/3.md, 4.md, 10.md;
`resetTo` takes any others). -/
def State.reset : State where
  cfg := exampleConfig
  x := Vector.replicate 31 0#64
  pc := 0#64
  pstate := ⟨.el3, 0b0000#4, 0b1111#4⟩
  el2Enabled := false
  hcr := ⟨false, false⟩
  peers := ⟨Vector.replicate 20 false, Vector.replicate 8 0#64, 0#64⟩
  mem := []

end Sys2Proof.Machine
end

