-- ==== Sys2Proof/Machine/Flags.lean ====
section
/-! DEFINITION. Flags. The spec gives no flag computation: no outcome of any instruction writes a
condition flag or another PSTATE field (R39, R91, D28). -/

namespace Sys2Proof.Machine

/-- PSTATE after a successful read: as it was (R39, R91). -/
def pstateAfterRead (p : PState) : PState := p

end Sys2Proof.Machine
end

