-- ==== Sys2Proof/Machine/Memory.lean ====
section
/-! DEFINITION. Memory: bytes by address over the 64-bit address space (R38, R55). The register has no
view in it (R51), and no instruction of the table stores to it (R50). -/

namespace Sys2Proof.Machine

/-- What an unlisted address holds: no byte. The memory map is OPEN (D14), so a fetch there faults.
Safe (notes/assumptions/7.md). -/
def unlistedByte : Option Byte := none

/-- The byte at an address, if there is one. -/
def memRead : List Host.Cell → Nat → Option Byte
  | [], _ => unlistedByte
  | (k, b) :: m, a => if k = a then some b else memRead m a

/-- Memory with one byte put at an address, its addresses still strictly rising. -/
def memWrite : List Host.Cell → Nat → Byte → List Host.Cell
  | [], a, b => [(a, b)]
  | (k, v) :: m, a, b =>
    if a < k then (a, b) :: (k, v) :: m
    else if a = k then (a, b) :: m
    else (k, v) :: memWrite m a b

/-- The canonical form: addresses strictly rising and inside the 64-bit address space. (An unlisted
address holds no byte, so no entry can equal what one reads as.) -/
def memWf (m : List Host.Cell) : Bool :=
  decide ((m.map Prod.fst).Pairwise (· < ·)) && m.all (fun c => decide (c.1 < 2 ^ 64))

end Sys2Proof.Machine
end

