-- ==== Sys2Proof/Machine/Operands.lean ====
section
/-! DEFINITION. The one operand form: the general register Xt, with register number 31 the zero register
XZR (R37, R73). -/

namespace Sys2Proof.Machine

/-- Reading general register n: XZR reads as zero (R37). -/
def readX (s : State) (n : Nat) : Word := if h : n < 31 then s.x[n] else 0#64

/-- Writing general register t: XZR discards the write (R73). -/
def writeX (t : Nat) (v : Word) (s : State) : State :=
  if h : t < 31 then { s with x := s.x.set t v } else s

end Sys2Proof.Machine
end

