-- ==== Sys2Proof/Machine/Ops.lean ====
section
/-! DEFINITION. The shared operations: reading the register, the access rule, raising an exceptional
outcome, completing a read. -/

namespace Sys2Proof.Machine

/-- The register: every read that succeeds returns V, at any Exception level (R42). -/
def readIdReg (s : State) : Word := s.cfg.V

/-- The number the access rule passes to AArch64.SystemAccessTrap, carried uninterpreted (R101, D29). -/
def sysAccessCode : Nat := 0x18

/-- The access rule, R81's function: the tests in R105's order, HCR_EL2 consulted only when EL2Enabled(). -/
def access (v : Word) (el : EL) (haveIDST el2Enabled tge tid3 : Bool) : AccessOutcome :=
  match el with
  | .el0 =>
    if haveIDST then
      if el2Enabled && tge then .trap .el2 sysAccessCode else .trap .el1 sysAccessCode
    else .undefinedAccess
  | .el1 => if el2Enabled && tid3 then .trap .el2 sysAccessCode else .ret v
  | .el2 => .ret v
  | .el3 => .ret v

/-- The access rule on the five inputs it reads from the machine (R36, R80). -/
def accessIdReg (s : State) : AccessOutcome :=
  access (readIdReg s) s.pstate.el s.cfg.haveIDST s.el2Enabled s.hcr.tge s.hcr.tid3

/-- Taking an exception, as the spec describes it: the step's result is the outcome itself, nothing is
written and pc is not advanced (R90, R106, D9). Exception entry is the enclosing machine's (R5). -/
def takeException (f : Fault) (_s : State) : Host.Outcome State Fault Refusal := .fault f

/-- `pc + 4`; past the top of the address space the OPEN PcWrap (R38, R89, D8). -/
def nextPc (pc : Word) : Word := if pc.toNat + 4 < 2 ^ 64 then pc + 4#64 else Config.pcWrap pc

/-- The effects of `Return(v)` (R89): Xt gets v, pc goes on, nothing else changes. -/
def completeRead (t : Nat) (v : Word) (s : State) : State :=
  let s1 := writeX t v s
  { s1 with pstate := pstateAfterRead s.pstate, pc := nextPc s.pc }

/-- What each outcome of the access rule does with destination t (R89, R90). -/
def finishAccess (t : Nat) (s : State) : AccessOutcome → Host.Outcome State Fault Refusal
  | .ret v => .next (completeRead t v s)
  | .trap target code => takeException (.systemAccessTrap target code) s
  | .undefinedAccess => takeException .undefinedInstr s

end Sys2Proof.Machine
end

