-- ==== Sys2Proof/Machine/SystemRegister.lean ====
section
/-! DEFINITION. The meanings of the system-register family: the read MRS and the write form MSR. -/

namespace Sys2Proof.Machine

/-- `MRS <Xt>, ID_AA64ISAR1_EL1` (R80, R81). -/
def execMrsIdAa64isar1El1 (t : Nat) (s : State) : Host.Outcome State Fault Refusal :=
  finishAccess t s (accessIdReg s)

/-- `MSR ID_AA64ISAR1_EL1, <Xt>`: UNDEFINED at every Exception level, Xt not read, V unchanged (R75, D5). -/
def execMsrIdAa64isar1El1 (_t : Nat) (s : State) : Host.Outcome State Fault Refusal :=
  takeException .undefinedInstr s

end Sys2Proof.Machine
end

