-- ==== Sys2Proof/Machine/Dispatch.lean ====
section
/-! DEFINITION. One arm per instruction of the opcode table. -/

namespace Sys2Proof.Machine

def exec (i : Instr) (s : State) : Host.Outcome State Fault Refusal :=
  match i with
  | .mrsIdAa64isar1El1 t => Sys2Proof.Machine.execMrsIdAa64isar1El1 t s
  | .msrIdAa64isar1El1 t => Sys2Proof.Machine.execMsrIdAa64isar1El1 t s

end Sys2Proof.Machine
end

