-- ==== Sys2Proof/Machine/Fetch.lean ====
section
/-! DEFINITION. Fetching an instruction's four bytes, and storing them where the fetch looks (R53, R77,
R79). -/

namespace Sys2Proof.Machine

/-- The address of the i-th byte of the instruction at pc, in the 64-bit address space. -/
def fetchAddr (pc : Word) (i : Nat) : Nat := (pc + BitVec.ofNat 64 i).toNat

/-- One byte of the instruction at pc. -/
def fetchByte (s : State) (i : Nat) : Except Fault Byte :=
  match memRead s.mem (fetchAddr s.pc i) with
  | some b => .ok b
  | none => .error (.fetchNoByte (fetchAddr s.pc i))

/-- Whether pc is 4-byte aligned (R38, R53). -/
def pcAligned (pc : Word) : Bool := pc.toNat % 4 == 0

/-- The four bytes at pc in ascending address order; a misaligned pc raises a PC alignment fault (R53). -/
def fetch (s : State) : Except Fault (List Byte) :=
  if pcAligned s.pc then do
    let b0 ← fetchByte s 0
    let b1 ← fetchByte s 1
    let b2 ← fetchByte s 2
    let b3 ← fetchByte s 3
    pure [b0, b1, b2, b3]
  else .error (.pcAlignment s.pc)

/-- Memory with the four bytes of a word stored at pc, least significant first (R79). -/
def storeWordAt (pc : Word) (w : InstrWord) (m : List Host.Cell) : List Host.Cell :=
  memWrite (memWrite (memWrite (memWrite m
    (fetchAddr pc 0) (wordByte w 0)) (fetchAddr pc 1) (wordByte w 1))
    (fetchAddr pc 2) (wordByte w 2)) (fetchAddr pc 3) (wordByte w 3)

end Sys2Proof.Machine
end

