-- ==== Sys2Proof/Machine/Step.lean ====
section
/-! DEFINITION. One step: refuse an ill-formed configuration (R30), fetch (R53), decode (R76), run. -/

namespace Sys2Proof.Machine

/-- One step of the machine. -/
def step (s : State) : Host.Outcome State Fault Refusal :=
  match failingClause s.cfg with
  | some c => .refused (.configNotWellFormed c)
  | none =>
    match fetch s with
    | .error f => .fault f
    | .ok bytes =>
      match decode bytes with
      | .ok (i, _) => exec i s
      | .error e => .refused (.notThisHardware e)

/-- The state with an opcode-table word stored at the program counter, where step fetches. -/
def State.withFetchWord (s : State) (nbits w : Nat) : State :=
  { s with mem := storeWordAt s.pc (tableWord nbits w) s.mem }

end Sys2Proof.Machine
end

