-- ==== Sys2Proof/Machine/AccessTable.lean ====
section
/-! DEFINITION. R92's complete decision table, transcribed as data, beside the function `access` of R81. -/

namespace Sys2Proof.Machine

/-- The five inputs of the access rule (R80). -/
structure AccessInputs where
  el : EL
  haveIDST : Bool
  el2Enabled : Bool
  tge : Bool
  tid3 : Bool
  deriving DecidableEq, Repr

/-- The outcome column of R92, before V is known. -/
inductive TableOutcome where
  | returnV
  | trap (target : EL)
  | undefinedOutcome
  deriving DecidableEq, Repr

/-- One row of R92; `none` is the table's "-", an input the row does not consult. -/
structure AccessRow where
  el : EL
  haveIDST : Option Bool
  el2Enabled : Option Bool
  tge : Option Bool
  tid3 : Option Bool
  outcome : TableOutcome
  deriving DecidableEq, Repr

/-- The nine rows of R92. -/
def accessTable : List AccessRow :=
  [⟨.el0, some false, none, none, none, .undefinedOutcome⟩,
   ⟨.el0, some true, some true, some true, none, .trap .el2⟩,
   ⟨.el0, some true, some true, some false, none, .trap .el1⟩,
   ⟨.el0, some true, some false, none, none, .trap .el1⟩,
   ⟨.el1, none, some true, none, some true, .trap .el2⟩,
   ⟨.el1, none, some true, none, some false, .returnV⟩,
   ⟨.el1, none, some false, none, none, .returnV⟩,
   ⟨.el2, none, none, none, none, .returnV⟩,
   ⟨.el3, none, none, none, none, .returnV⟩]

/-- Whether an input meets a cell. -/
def cellMatches (cell : Option Bool) (b : Bool) : Bool := cell.all (· == b)

/-- Whether the inputs meet a row. -/
def rowMatches (i : AccessInputs) (r : AccessRow) : Bool :=
  r.el == i.el && cellMatches r.haveIDST i.haveIDST && cellMatches r.el2Enabled i.el2Enabled &&
  cellMatches r.tge i.tge && cellMatches r.tid3 i.tid3

/-- A table outcome on a PE whose register value is v; every trap's code is 0x18. -/
def TableOutcome.on (v : Word) : TableOutcome → AccessOutcome
  | .returnV => .ret v
  | .trap target => .trap target 0x18
  | .undefinedOutcome => .undefinedAccess

/-- All 64 assignments of the five inputs (R92). -/
def allAccessInputs : List AccessInputs :=
  [EL.el0, EL.el1, EL.el2, EL.el3].flatMap fun el =>
  [false, true].flatMap fun idst =>
  [false, true].flatMap fun en =>
  [false, true].flatMap fun tge =>
  [false, true].map fun tid3 => ⟨el, idst, en, tge, tid3⟩

/-- `access` on a bundle of inputs. -/
def accessOn (v : Word) (i : AccessInputs) : AccessOutcome :=
  access v i.el i.haveIDST i.el2Enabled i.tge i.tid3

end Sys2Proof.Machine
end

