-- ==== Sys2Proof/Machine/Assembly.lean ====
section
/-! DEFINITION. Assembler syntax (R70, R73): the text of an instruction, and the generic spelling of a
system register by its selector values. -/

namespace Sys2Proof.Machine

/-- The decimal digits of a number below 100. -/
def decimalChars (n : Nat) : List Char :=
  if n < 10 then [Char.ofNat (48 + n)] else [Char.ofNat (48 + n / 10), Char.ofNat (48 + n % 10)]

/-- `X<t>`, or XZR for register number 31 (R73). -/
def xName (t : Nat) : List Char := if t = 31 then "XZR".toList else 'X' :: decimalChars t

/-- The register's name (R1). -/
def idRegName : List Char := "ID_AA64ISAR1_EL1".toList

/-- An instruction as assemblers write it (R70, R78). -/
def asmText : Instr → List Char
  | .mrsIdAa64isar1El1 t => "MRS ".toList ++ xName t ++ ", ".toList ++ idRegName
  | .msrIdAa64isar1El1 t => "MSR ".toList ++ idRegName ++ ", ".toList ++ xName t

/-- `S<op0>_<op1>_C<CRn>_C<CRm>_<op2>`, the generic spelling of R70 (general knowledge, as R70 marks it). -/
def genericName (r : SysRegSelector) : List Char :=
  'S' :: decimalChars r.op0.toNat ++ '_' :: decimalChars r.op1.toNat ++ "_C".toList ++
  decimalChars r.crn.toNat ++ "_C".toList ++ decimalChars r.crm.toNat ++ '_' :: decimalChars r.op2.toNat

end Sys2Proof.Machine
end

