-- ==== Sys2Proof/Machine/EntryOffer.lean ====
section
/-! DEFINITION. What R102, R103 and R106 OFFER an enclosing machine that continues into a handler:
general knowledge, "not rules of this spec". No step uses it: a step ends with the fault (R90). PRESUMED
by the spec itself (notes/assumptions/6.md). -/

namespace Sys2Proof.Machine

/-- The syndrome of R103 for a trapped read into register t: EC [31:26], IL [25], zero [24:22], Op0
[21:20], Op2 [19:17], Op1 [16:14], CRn [13:10], Rt [9:5], CRm [4:1], Direction [0] (1 for a read). -/
def offeredSyndrome (t : Nat) : BitVec 32 :=
  BitVec.ofNat 6 sysAccessCode ++ 1#1 ++ 0#3 ++ idAa64isar1Selector.op0 ++ idAa64isar1Selector.op2 ++
  idAa64isar1Selector.op1 ++ idAa64isar1Selector.crn ++ BitVec.ofNat 5 t ++ idAa64isar1Selector.crm ++ 1#1

/-- The offset from VBAR_ELx of a synchronous exception from a lower level using AArch64 (R106). -/
def lowerSyncOffset : Word := 0x400#64

/-- What R106 says a synchronous exception writes: the target level, ELR, SPSR, the syndrome, and PSTATE in
the handler (target level, D, A, I and F set). -/
structure EntryOffer where
  target : EL
  elr : Word
  spsr : PState
  syndrome : BitVec 32
  handlerPState : PState
  deriving DecidableEq, Repr

/-- R106's offer for a trap taken to `target` from state s by a read into register t. -/
def offeredEntry (target : EL) (t : Nat) (s : State) : EntryOffer where
  target := target
  elr := s.pc
  spsr := s.pstate
  syndrome := offeredSyndrome t
  handlerPState := { s.pstate with el := target, daif := 0b1111#4 }

/-- Where the handler starts, given VBAR of the target level (the OPEN VectorBase(el), R55). -/
def offeredVector (vbar : Word) : Word := vbar + lowerSyncOffset

/-- R102's offer for UNDEFINED at EL0: to EL1, or to EL2 when EL2Enabled() and TGE is 1. UndefinedRouting
is OPEN (D10) and nothing is offered for the other levels. -/
def offeredUndefinedTarget (s : State) : Option EL :=
  match s.pstate.el with
  | .el0 => some (if s.el2Enabled && s.hcr.tge then .el2 else .el1)
  | .el1 => none
  | .el2 => none
  | .el3 => none

/-- The exception class R102 offers for UNDEFINED. -/
def offeredUndefinedClass : BitVec 6 := 0#6

end Sys2Proof.Machine
end

