-- ==== Sys2Proof/Machine/Features.lean ====
section
/-! DEFINITION. What the register's value means (R14 to R29, R32 to R35): the value tables row by row, the
feature names, the pointer-authentication predicates, the instruction-availability predicates, and the
two Configuration conditions. -/

namespace Sys2Proof.Machine

/-- Everything a field's value table reports as supported or implemented, by the source's names. A
trailing "Other" or "Group" stands for a name the source leaves as a pattern (R7). -/
inductive Reported where
  | LD64B | ST64B | ST64BV
  /-- the rest of "ST64B*" (R14) -/
  | ST64BOther
  /-- the "associated traps" of LS64 (R14) -/
  | ls64Traps
  | ACCDATA_EL1
  | xsAttribute | TLBI_nXS | DSB_nXS | HCRX_EL2_nXS
  | SMMLA | SUDOT | UMMLA | USMMLA | USDOT
  | dataGatheringHint
  | BFCVT | BFCVTN | BFCVTN2 | BFDOT | BFMLALB | BFMLALT | BFMMLA
  | CFP_RCTX | DVP_RCTX | CPP_RCTX
  | SB
  | FRINT32Z | FRINT32X | FRINT64Z | FRINT64X
  | PACGA
  /-- "LDAPR*" (R24) -/
  | LDAPRGroup
  /-- "LDAPUR*" (R24) -/
  | LDAPURGroup
  /-- "STLUR*" (R24) -/
  | STLURGroup
  | FCMLA | FCADD
  | FJCVTZS
  /-- "all Pointer Authentication instructions other than the PACGA instruction" (R27, R28) -/
  | pauthOtherThanPACGA
  | DC_CVAP | DC_CVADP
  deriving DecidableEq, Repr

/-- The value tables of R14 to R29, one line per row that reports something. A row that reports nothing,
and a reserved value, is the last line (the source gives a reserved value no meaning: R13). In LS64's
row 3 "LD64" is read as LD64B (90_conflicts.md C1), and DPB's row 2 has the recovered meaning (C3). -/
def rowReports : IdField → Nat → List Reported
  | .LS64, 1 => [.LD64B, .ST64B]
  | .LS64, 2 => [.LD64B, .ST64B, .ST64BV, .ls64Traps]
  | .LS64, 3 => [.LD64B, .ST64B, .ST64BV, .ST64BOther, .ACCDATA_EL1, .ls64Traps]
  | .XS, 1 => [.xsAttribute, .TLBI_nXS, .DSB_nXS, .HCRX_EL2_nXS]
  | .I8MM, 1 => [.SMMLA, .SUDOT, .UMMLA, .USMMLA, .USDOT]
  | .DGH, 1 => [.dataGatheringHint]
  | .BF16, 1 => [.BFCVT, .BFCVTN, .BFCVTN2, .BFDOT, .BFMLALB, .BFMLALT, .BFMMLA]
  | .SPECRES, 1 => [.CFP_RCTX, .DVP_RCTX, .CPP_RCTX]
  | .SB, 1 => [.SB]
  | .FRINTTS, 1 => [.FRINT32Z, .FRINT32X, .FRINT64Z, .FRINT64X]
  | .GPI, 1 => [.PACGA]
  | .GPA, 1 => [.PACGA]
  | .LRCPC, 1 => [.LDAPRGroup]
  | .LRCPC, 2 => [.LDAPRGroup, .LDAPURGroup, .STLURGroup]
  | .FCMA, 1 => [.FCMLA, .FCADD]
  | .JSCVT, 1 => [.FJCVTZS]
  | .API, 1 => [.pauthOtherThanPACGA]
  | .API, 2 => [.pauthOtherThanPACGA]
  | .API, 3 => [.pauthOtherThanPACGA]
  | .API, 4 => [.pauthOtherThanPACGA]
  | .API, 5 => [.pauthOtherThanPACGA]
  | .APA, 1 => [.pauthOtherThanPACGA]
  | .APA, 2 => [.pauthOtherThanPACGA]
  | .APA, 3 => [.pauthOtherThanPACGA]
  | .APA, 4 => [.pauthOtherThanPACGA]
  | .APA, 5 => [.pauthOtherThanPACGA]
  | .DPB, 1 => [.DC_CVAP]
  | .DPB, 2 => [.DC_CVAP, .DC_CVADP]
  | _, _ => []

/-- Whether some field of V reports the item, read row by row from the value tables. -/
def reports (V : Word) (r : Reported) : Bool :=
  IdField.all.any fun f => (rowReports f (idFieldNat V f)).contains r

/-- The eighteen instruction-availability predicates of R33. -/
inductive HavePredicate where
  | LS64 | LS64_V | LS64_ACCDATA | XS | I8MM | DGH | BF16 | SPECRES | SB | FRINTTS | GenericAuth
  | LRCPC | LRCPC2 | FCMA | JSCVT | AddressAuth | DPB | DPB2
  deriving DecidableEq, Repr

def HavePredicate.all : List HavePredicate :=
  [.LS64, .LS64_V, .LS64_ACCDATA, .XS, .I8MM, .DGH, .BF16, .SPECRES, .SB, .FRINTTS, .GenericAuth,
   .LRCPC, .LRCPC2, .FCMA, .JSCVT, .AddressAuth, .DPB, .DPB2]

/-- R33's second column: when each predicate is true. -/
def HavePredicate.holds (V : Word) : HavePredicate → Bool
  | .LS64 => [1, 2, 3].contains (idFieldNat V .LS64)
  | .LS64_V => [2, 3].contains (idFieldNat V .LS64)
  | .LS64_ACCDATA => idFieldNat V .LS64 == 3
  | .XS => idFieldNat V .XS == 1
  | .I8MM => idFieldNat V .I8MM == 1
  | .DGH => idFieldNat V .DGH == 1
  | .BF16 => idFieldNat V .BF16 == 1
  | .SPECRES => idFieldNat V .SPECRES == 1
  | .SB => idFieldNat V .SB == 1
  | .FRINTTS => idFieldNat V .FRINTTS == 1
  | .GenericAuth => idFieldNat V .GPI == 1 || idFieldNat V .GPA == 1
  | .LRCPC => [1, 2].contains (idFieldNat V .LRCPC)
  | .LRCPC2 => idFieldNat V .LRCPC == 2
  | .FCMA => idFieldNat V .FCMA == 1
  | .JSCVT => idFieldNat V .JSCVT == 1
  | .AddressAuth => idFieldNat V .API != 0 || idFieldNat V .APA != 0
  | .DPB => [1, 2].contains (idFieldNat V .DPB)
  | .DPB2 => idFieldNat V .DPB == 2

/-- R33's third column: what each predicate reports. LS64_ACCDATA's all "ST64B*" instructions has
ST64B and ST64BV as members (R7), which LS64 and LS64_V report too. -/
def HavePredicate.items : HavePredicate → List Reported
  | .LS64 => [.LD64B, .ST64B]
  | .LS64_V => [.ST64BV, .ls64Traps]
  | .LS64_ACCDATA => [.ST64B, .ST64BV, .ST64BOther, .ACCDATA_EL1]
  | .XS => [.xsAttribute, .TLBI_nXS, .DSB_nXS, .HCRX_EL2_nXS]
  | .I8MM => [.SMMLA, .SUDOT, .UMMLA, .USMMLA, .USDOT]
  | .DGH => [.dataGatheringHint]
  | .BF16 => [.BFCVT, .BFCVTN, .BFCVTN2, .BFDOT, .BFMLALB, .BFMLALT, .BFMMLA]
  | .SPECRES => [.CFP_RCTX, .DVP_RCTX, .CPP_RCTX]
  | .SB => [.SB]
  | .FRINTTS => [.FRINT32Z, .FRINT32X, .FRINT64Z, .FRINT64X]
  | .GenericAuth => [.PACGA]
  | .LRCPC => [.LDAPRGroup]
  | .LRCPC2 => [.LDAPURGroup, .STLURGroup]
  | .FCMA => [.FCMLA, .FCADD]
  | .JSCVT => [.FJCVTZS]
  | .AddressAuth => [.pauthOtherThanPACGA]
  | .DPB => [.DC_CVAP]
  | .DPB2 => [.DC_CVADP]

/-- The feature names the source ties to field values (R2, R14 to R29). FEAT_IDST, the twentieth name,
is tied to no field: it is `PEConfig.haveIDST`. -/
inductive Feature where
  | FEAT_LS64 | FEAT_LS64_V | FEAT_LS64_ACCDATA | FEAT_XS | FEAT_I8MM | FEAT_DGH | FEAT_BF16
  | FEAT_SPECRES | FEAT_SB | FEAT_FRINTTS | FEAT_LRCPC | FEAT_LRCPC2 | FEAT_FCMA | FEAT_JSCVT
  | FEAT_PAuth | FEAT_PAuth2 | FEAT_FPAC | FEAT_DPB | FEAT_DPB2
  deriving DecidableEq, Repr

/-- The "FEAT_x implements the functionality identified by …" sentences as printed: the fields and values
a feature name is tied to. FEAT_PAuth's list holds 0 as the source prints it (90_conflicts.md C5); no
definition of the model derives an instruction or a step from a feature name. -/
def Feature.values : Feature → List IdField × List Nat
  | .FEAT_LS64 => ([.LS64], [1])
  | .FEAT_LS64_V => ([.LS64], [2])
  | .FEAT_LS64_ACCDATA => ([.LS64], [3])
  | .FEAT_XS => ([.XS], [1])
  | .FEAT_I8MM => ([.I8MM], [1])
  | .FEAT_DGH => ([.DGH], [1])
  | .FEAT_BF16 => ([.BF16], [1])
  | .FEAT_SPECRES => ([.SPECRES], [1])
  | .FEAT_SB => ([.SB], [1])
  | .FEAT_FRINTTS => ([.FRINTTS], [1])
  | .FEAT_LRCPC => ([.LRCPC], [1])
  | .FEAT_LRCPC2 => ([.LRCPC], [2])
  | .FEAT_FCMA => ([.FCMA], [1])
  | .FEAT_JSCVT => ([.JSCVT], [1])
  | .FEAT_PAuth => ([.API, .APA], [0, 1, 2])
  | .FEAT_PAuth2 => ([.API, .APA], [3])
  | .FEAT_FPAC => ([.API, .APA], [4, 5])
  | .FEAT_DPB => ([.DPB], [1])
  | .FEAT_DPB2 => ([.DPB], [2])

/-- The algorithm names of R22, R23, R27, R28 and R32. -/
inductive AuthAlgorithm where
  | qarma
  | implementationDefined
  deriving DecidableEq, Repr

/-- What R32 ties to the non-zero one of API and APA. -/
structure PacInfo where
  algorithm : AuthAlgorithm
  haveEnhancedPAC : Bool
  haveEnhancedPAC2 : Bool
  haveFPAC : Bool
  haveFPACCombined : Bool
  deriving DecidableEq, Repr

/-- R32's table: the four functions for the value `a` of the non-zero field. The cells R32 marks "(d)"
are FALSE by its decision D19. A reserved value of `a` has no row. -/
def pacRow (alg : AuthAlgorithm) : Nat → Option PacInfo
  | 1 => some ⟨alg, false, false, false, false⟩
  | 2 => some ⟨alg, true, false, false, false⟩
  | 3 => some ⟨alg, false, true, false, false⟩
  | 4 => some ⟨alg, false, true, true, false⟩
  | 5 => some ⟨alg, false, true, true, true⟩
  | _ => none

/-- R32: the pointer-authentication functions of V. With API and APA both zero they have no value
(`none`). When both are non-zero (no well-formed V) they have none either. -/
def addressAuth (V : Word) : Option PacInfo :=
  if idFieldNat V .API = 0 then pacRow .qarma (idFieldNat V .APA)
  else if idFieldNat V .APA = 0 then pacRow .implementationDefined (idFieldNat V .API)
  else none

/-- R32: the algorithm that implements generic authentication (the PACGA instruction), if any. -/
def genericAuth (V : Word) : Option AuthAlgorithm :=
  if idFieldNat V .GPA = 1 then some .qarma
  else if idFieldNat V .GPI = 1 then some .implementationDefined
  else none

/-- The first Configuration condition (R34): `{API, APA} == {0000, 0000}`. Its consequences are
`Machine/Peers.lean`'s. -/
def noAddressAuth (V : Word) : Bool := idFieldNat V .API == 0 && idFieldNat V .APA == 0

/-- The second Configuration condition (R35): `{GPI, GPA, API, APA}` all zero. Its list of consequences is
lost in the source and R35 asserts none, so nothing in the model follows from it. -/
def noPointerAuth (V : Word) : Bool :=
  idFieldNat V .GPI == 0 && idFieldNat V .GPA == 0 && noAddressAuth V

end Sys2Proof.Machine
end

