-- ==== Sys2Proof/Machine/Peers.lean ====
section
/-! DEFINITION. The other registers the source names, and what ID_AA64ISAR1_EL1's value says of them: R34's
list of RES0 bits and unallocated registers, ACCDATA_EL1 (R14) and the HCRX_EL2 fields (R15). No
instruction of the opcode table reaches them; these are the accesses an enclosing machine makes (R40). DESIGN CHOICE (notes/assumptions/10.md): they are
the same at every Exception level, EL0 included, since the source does not say which levels may make them. -/

namespace Sys2Proof.Machine

/-- The place of SCTLR_ELx's group of four bits. -/
def sctlrLevelIndex : SctlrLevel → Nat
  | .el1 => 0
  | .el2 => 1
  | .el3 => 2

/-- The place of a bit in its group. -/
def sctlrBitIndex : SctlrBit → Nat
  | .EnIA => 0
  | .EnIB => 1
  | .EnDA => 2
  | .EnDB => 3

/-- Where `PeerRegs.bits` keeps each bit. -/
def peerBitIndex : PeerBit → Fin 20
  | .tcrEl1TBID => 0
  | .tcrEl1TBID0 => 1
  | .tcrEl2TBID0 => 2
  | .tcrEl2TBID1 => 3
  | .tcrEl2TBID => 4
  | .tcrEl3TBID => 5
  | .hcrxFGTnXS => 6
  | .hcrxFnXS => 7
  | .sctlr x b =>
    ⟨8 + 4 * sctlrLevelIndex x + sctlrBitIndex b, by cases x <;> cases b <;> decide⟩

/-- Where `PeerRegs.keys` keeps each key register. -/
def apKeyIndex : ApKey → Fin 8
  | .APIAKeyHi => 0
  | .APIAKeyLo => 1
  | .APIBKeyHi => 2
  | .APIBKeyLo => 3
  | .APDAKeyHi => 4
  | .APDAKeyLo => 5
  | .APDBKeyHi => 6
  | .APDBKeyLo => 7

/-- What a single-bit field of the source's list is on this PE. -/
inductive PeerPresence where
  /-- an ordinary bit -/
  | present
  /-- RES0: reads as zero, writes have no effect (PRESUMED, 93_implementation_defined.md G3 and U7) -/
  | res0
  /-- "not supported": the source gives an access no meaning -/
  | absent
  deriving DecidableEq, Repr

/-- R34 for the TCR_ELx and SCTLR_ELx bits; R15 for the HCRX_EL2 fields. V alone decides. DESIGN CHOICE
(notes/assumptions/10.md): whether the bits of TCR_EL2, TCR_EL3, SCTLR_EL2 and SCTLR_EL3, or HCRX_EL2's
fields, exist on a PE whose ImplementedELs leaves their level out is open (R7: "each Exception level that
has one"; 91_not_in_source.md N12; R109), and the model holds them there too. -/
def peerBitPresence (V : Word) : PeerBit → PeerPresence
  | .hcrxFGTnXS => if HavePredicate.holds V .XS then .present else .absent
  | .hcrxFnXS => if HavePredicate.holds V .XS then .present else .absent
  | .tcrEl1TBID => if noAddressAuth V then .res0 else .present
  | .tcrEl1TBID0 => if noAddressAuth V then .res0 else .present
  | .tcrEl2TBID0 => if noAddressAuth V then .res0 else .present
  | .tcrEl2TBID1 => if noAddressAuth V then .res0 else .present
  | .tcrEl2TBID => if noAddressAuth V then .res0 else .present
  | .tcrEl3TBID => if noAddressAuth V then .res0 else .present
  | .sctlr _ _ => if noAddressAuth V then .res0 else .present

/-- R34: the eight key registers are "not allocated" when API and APA are both zero. -/
def apKeysAllocated (V : Word) : Bool := !noAddressAuth V

/-- R14: ACCDATA_EL1 is supported exactly when LS64 is 3. -/
def accdataSupported (V : Word) : Bool := HavePredicate.holds V .LS64_ACCDATA

/-- Reading a bit of another register. -/
def readPeerBit (s : State) (b : PeerBit) : Except Fault Bool :=
  match peerBitPresence (readIdReg s) b with
  | .present => .ok s.peers.bits[peerBitIndex b]
  | .res0 => .ok false
  | .absent => .error (.hcrxNotSupported b)

/-- Writing a bit of another register. -/
def writePeerBit (b : PeerBit) (v : Bool) (s : State) : Except Fault State :=
  match peerBitPresence (readIdReg s) b with
  | .present =>
    .ok { s with peers.bits := s.peers.bits.set (peerBitIndex b) v (peerBitIndex b).isLt }
  | .res0 => .ok s
  | .absent => .error (.hcrxNotSupported b)

/-- Reading a key register; a fault where it is not allocated (R34, 93_implementation_defined.md U8). -/
def readApKey (s : State) (k : ApKey) : Except Fault Word :=
  if apKeysAllocated (readIdReg s) then .ok s.peers.keys[apKeyIndex k]
  else .error (.keyNotAllocated k)

/-- Writing a key register; a fault where it is not allocated (R34, 93_implementation_defined.md U8). -/
def writeApKey (k : ApKey) (v : Word) (s : State) : Except Fault State :=
  if apKeysAllocated (readIdReg s) then
    .ok { s with peers.keys := s.peers.keys.set (apKeyIndex k) v (apKeyIndex k).isLt }
  else .error (.keyNotAllocated k)

/-- Reading ACCDATA_EL1 (R14). -/
def readAccdata (s : State) : Except Fault Word :=
  if accdataSupported (readIdReg s) then .ok s.peers.accdata else .error .accdataNotSupported

/-- Writing ACCDATA_EL1 (R14). -/
def writeAccdata (v : Word) (s : State) : Except Fault State :=
  if accdataSupported (readIdReg s) then .ok { s with peers.accdata := v }
  else .error .accdataNotSupported

/-- What an access to another register makes of the machine: the new state, or the fault taken (nothing is
written). -/
def finishPeerAccess (s : State) : Except Fault State → Host.Outcome State Fault Refusal
  | .ok s' => .next s'
  | .error f => takeException f s

end Sys2Proof.Machine
end

