-- ==== Sys2Proof/Machine/Environment.lean ====
section
/-! DEFINITION. Reset with any values for what the spec leaves unspecified (R43, R120, R121), and what the
enclosing machine may do between this PE's reads (R36, R37, R40, R57, R113). -/

namespace Sys2Proof.Machine

/-- The four items of R36 that the enclosing machine presents to a read. -/
structure Inputs where
  el : EL
  el2Enabled : Bool
  hcr : HcrEl2
  deriving DecidableEq, Repr

/-- D12: the current Exception level is implemented (R109), and EL2Enabled() is false where EL2 is not
(R110). -/
def inputsOk (c : PEConfig) (i : Inputs) : Bool :=
  c.implementedELs.has i.el && (!i.el2Enabled || c.implementedELs.el2)

/-- A draw for every value a reset leaves unspecified (R43: "a free input (a draw)"). -/
structure ResetDraw where
  x : Vector Word 31
  pc : Word
  inputs : Inputs
  nzcv : BitVec 4
  daif : BitVec 4
  peers : PeerRegs
  mem : List Host.Cell
  deriving DecidableEq, Repr

/-- A reset, warm or cold: V and the rest of the configuration stay (R43, R115, R120), everything else is
the draw's (R121). -/
def resetTo (d : ResetDraw) (s : State) : State where
  cfg := s.cfg
  x := d.x
  pc := d.pc
  pstate := ⟨d.inputs.el, d.nzcv, d.daif⟩
  el2Enabled := d.inputs.el2Enabled
  hcr := d.inputs.hcr
  peers := d.peers
  mem := d.mem

/-- The draw `State.reset` stands for. -/
def namedDraw : ResetDraw where
  x := State.reset.x
  pc := State.reset.pc
  inputs := ⟨State.reset.pstate.el, State.reset.el2Enabled, State.reset.hcr⟩
  nzcv := State.reset.pstate.nzcv
  daif := State.reset.pstate.daif
  peers := State.reset.peers
  mem := State.reset.mem

/-- What can happen on or around this PE. Nothing else in the spec touches its state (R44, R125). -/
inductive Event where
  /-- this PE runs one instruction -/
  | stepPE
  /-- the level, EL2Enabled() or HCR_EL2 change (a higher level's doing: R36, R57) -/
  | present (i : Inputs)
  /-- an ordinary instruction of the enclosing machine writes a register, the pc, the flags and masks, or a
  byte of memory (R37, R38, R39, R55) -/
  | setX (n : Nat) (v : Word)
  | setPc (v : Word)
  | setFlags (nzcv daif : BitVec 4)
  | storeByte (a : Word) (b : Byte)
  /-- an access to a register of R40: a fault where it is not there (93_implementation_defined.md U8) -/
  | setPeerBit (b : PeerBit) (v : Bool)
  | setApKey (k : ApKey) (v : Word)
  | setAccdata (v : Word)
  /-- a register of R40 is read into x[n] -/
  | getApKey (n : Nat) (k : ApKey)
  | getAccdata (n : Nat)
  | resetPE (d : ResetDraw)
  deriving DecidableEq, Repr

/-- Whether an event is one the spec allows on a PE of this configuration: inputs and reset draws meet D12,
and a drawn memory has the canonical form. -/
def eventOk (c : PEConfig) : Event → Bool
  | .stepPE => true
  | .present i => inputsOk c i
  | .setX _ _ => true
  | .setPc _ => true
  | .setFlags _ _ => true
  | .storeByte _ _ => true
  | .setPeerBit _ _ => true
  | .setApKey _ _ => true
  | .setAccdata _ => true
  | .getApKey _ _ => true
  | .getAccdata _ => true
  | .resetPE d => inputsOk c d.inputs && memWf d.mem

/-- One event. An access to a register that is not there faults (R34, 93_implementation_defined.md U8), and
the history ends there. DESIGN CHOICE (notes/assumptions/10.md): the accesses to the registers of R40 ask
nothing of PSTATE.EL, since the source does not say from which Exception levels they can be made (R40,
91_not_in_source.md N12). -/
def applyEvent (s : State) : Event → Host.Outcome State Fault Refusal
  | .stepPE => step s
  | .present i =>
    .next { s with pstate.el := i.el, el2Enabled := i.el2Enabled, hcr := i.hcr }
  | .setX n v => .next (writeX n v s)
  | .setPc v => .next { s with pc := v }
  | .setFlags nzcv daif => .next { s with pstate.nzcv := nzcv, pstate.daif := daif }
  | .storeByte a b => .next { s with mem := memWrite s.mem a.toNat b }
  | .setPeerBit b v => finishPeerAccess s (writePeerBit b v s)
  | .setApKey k v => finishPeerAccess s (writeApKey k v s)
  | .setAccdata v => finishPeerAccess s (writeAccdata v s)
  | .getApKey n k => finishPeerAccess s ((readApKey s k).map fun v => writeX n v s)
  | .getAccdata n => finishPeerAccess s ((readAccdata s).map fun v => writeX n v s)
  | .resetPE d => .next (resetTo d s)

/-- A history: events in order, ended by the first fault or refusal (R125). -/
def runEvents : List Event → State → Host.Outcome State Fault Refusal
  | [], s => .next s
  | e :: es, s =>
    match applyEvent s e with
    | .next s' => runEvents es s'
    | .fault f => .fault f
    | .refused r => .refused r

end Sys2Proof.Machine
end

