-- ==== Sys2Proof/Safety.lean ====
section
/-! DEFINITION. The terms claims use: when a read may succeed, what a completed read leaves, and the
invariant of the machine. -/

namespace Sys2Proof.Machine

/-- R109's table: the inputs at which a read succeeds (R86, R87, R88). -/
def MayRead (s : State) : Prop :=
  (s.pstate.el = .el1 ∧ (s.el2Enabled = false ∨ s.hcr.tid3 = false)) ∨
  s.pstate.el = .el2 ∨ s.pstate.el = .el3

/-- What `Return(V)` into register t does (R89), from s to s': x[t] gets V (nothing for XZR), pc goes on by
4 where that stays inside the address space, and nothing else changes: no other register, no flag, no
control, no other register of R40, no byte of memory. -/
structure ReadDone (t : Nat) (s s' : State) : Prop where
  dest : t < 31 → readX s' t = s.cfg.V
  otherX : ∀ n, n ≠ t ∨ t = 31 → readX s' n = readX s n
  pc : s.pc.toNat + 4 < 2 ^ 64 → s'.pc = s.pc + 4#64
  config : s'.cfg = s.cfg
  pstate : s'.pstate = s.pstate
  el2Enabled : s'.el2Enabled = s.el2Enabled
  hcr : s'.hcr = s.hcr
  peers : s'.peers = s.peers
  memory : ∀ a, memRead s'.mem a = memRead s.mem a

/-- The state invariant: the configuration is one R30 admits, the current level and EL2Enabled() meet D12,
and memory has its canonical form. -/
abbrev State.Inv (s : State) : Prop :=
  configWf s.cfg = true ∧ inputsOk s.cfg ⟨s.pstate.el, s.el2Enabled, s.hcr⟩ = true ∧ memWf s.mem = true

/-- A PE whose register value is v, everything else the same: for claims that compare two PEs (R113). -/
def State.withV (s : State) (v : Word) : State := { s with cfg := { s.cfg with V := v } }

/-- R30 spelled out clause by clause from R14 to R29, with clause 6 read from the "permitted values"
sentences (R31, D3, D4), not from R31's collected table. -/
structure ConfigMeetsSpec (c : PEConfig) : Prop where
  ls64 : idFieldNat c.V .LS64 ≤ 3
  lrcpc : idFieldNat c.V .LRCPC ≤ 2
  api : idFieldNat c.V .API ≤ 5
  apa : idFieldNat c.V .APA ≤ 5
  dpb : idFieldNat c.V .DPB ≤ 2
  oneBit : ∀ f ∈ [IdField.XS, .I8MM, .DGH, .BF16, .SPECRES, .SB, .FRINTTS, .GPI, .GPA, .FCMA, .JSCVT],
    idFieldNat c.V f ≤ 1
  gpiWhenGpa : idFieldNat c.V .GPA ≠ 0 → idFieldNat c.V .GPI = 0
  apiWhenApa : idFieldNat c.V .APA ≠ 0 → idFieldNat c.V .API = 0
  zfr0 : c.haveSIMDandSVE = true → idField c.V .I8MM = c.zfr0I8MM ∧ idField c.V .BF16 = c.zfr0BF16
  dgh : c.dghHasEffect = false → idFieldNat c.V .DGH = 0
  permitted : ∀ f, f ≠ .API → f ≠ .APA →
    idFieldNat c.V f ∈ permittedBySentences c.archVersion c.haveSIMDorFP f
  addressAuthFrom86 : 6 ≤ c.archVersion.minor →
    (idFieldNat c.V .API = 0 ∧ 3 ≤ idFieldNat c.V .APA ∧ idFieldNat c.V .APA ≤ 5) ∨
    (idFieldNat c.V .APA = 0 ∧ 3 ≤ idFieldNat c.V .API ∧ idFieldNat c.V .API ≤ 5)

end Sys2Proof.Machine
end

