-- ==== Sys2Proof/Certificates/Slice0/Obligations.lean ====
section
/-! DEFINITION. The statements for the provers. Every one is about every state, configuration or operand it
quantifies over, reached or not. -/

open Sys2Proof Sys2Proof.Machine

/-! The read, arm by arm (R82 to R88). -/

/-- R86: at EL1, with EL2 not enabled or TID3 clear, the read completes with Return(V); Xt holds V. -/
def Obligations.MrsAtEl1Returns : Prop :=
  ∀ (s : State) (t : Nat), t < 32 → s.pstate.el = .el1 → (s.el2Enabled = false ∨ s.hcr.tid3 = false) →
    accessIdReg s = .ret s.cfg.V ∧
    ∃ s', exec (.mrsIdAa64isar1El1 t) s = .next s' ∧ (t < 31 → readX s' t = s.cfg.V)

/-- R87: at EL2 the read completes with Return(V), whatever the controls. -/
def Obligations.MrsAtEl2Returns : Prop :=
  ∀ (s : State) (t : Nat), t < 32 → s.pstate.el = .el2 →
    accessIdReg s = .ret s.cfg.V ∧
    ∃ s', exec (.mrsIdAa64isar1El1 t) s = .next s' ∧ (t < 31 → readX s' t = s.cfg.V)

/-- R88: at EL3 the read completes with Return(V), whatever the controls. -/
def Obligations.MrsAtEl3Returns : Prop :=
  ∀ (s : State) (t : Nat), t < 32 → s.pstate.el = .el3 →
    accessIdReg s = .ret s.cfg.V ∧
    ∃ s', exec (.mrsIdAa64isar1El1 t) s = .next s' ∧ (t < 31 → readX s' t = s.cfg.V)

/-- R82: at EL0 with FEAT_IDST, EL2 enabled and TGE set, the trap goes to EL2 with code 0x18. -/
def Obligations.MrsAtEl0UnderTgeTrapsToEl2 : Prop :=
  ∀ (s : State) (t : Nat), s.pstate.el = .el0 → s.cfg.haveIDST = true → s.el2Enabled = true →
    s.hcr.tge = true → exec (.mrsIdAa64isar1El1 t) s = .fault (.systemAccessTrap .el2 0x18)

/-- R83: at EL0 with FEAT_IDST otherwise, the trap goes to EL1 with code 0x18, whatever TID3 is. -/
def Obligations.MrsAtEl0TrapsToEl1 : Prop :=
  ∀ (s : State) (t : Nat), s.pstate.el = .el0 → s.cfg.haveIDST = true →
    (s.el2Enabled = false ∨ s.hcr.tge = false) →
    exec (.mrsIdAa64isar1El1 t) s = .fault (.systemAccessTrap .el1 0x18)

/-- R84: at EL0 without FEAT_IDST the read is UNDEFINED; and at EL0 it returns on no configuration. -/
def Obligations.MrsAtEl0WithoutIdstIsUndefined : Prop :=
  ∀ (s : State) (t : Nat), s.pstate.el = .el0 →
    (s.cfg.haveIDST = false → exec (.mrsIdAa64isar1El1 t) s = .fault .undefinedInstr) ∧
    ∀ s', exec (.mrsIdAa64isar1El1 t) s ≠ .next s'

/-- R85: at EL1 with EL2 enabled and TID3 set, the trap goes to EL2 with code 0x18, whatever FEAT_IDST and
TGE are. -/
def Obligations.MrsAtEl1UnderTid3TrapsToEl2 : Prop :=
  ∀ (s : State) (t : Nat), s.pstate.el = .el1 → s.el2Enabled = true → s.hcr.tid3 = true →
    exec (.mrsIdAa64isar1El1 t) s = .fault (.systemAccessTrap .el2 0x18)

/-! Completion, frame and faults. -/

/-- The read completes exactly where R86 to R88 let it, and then does exactly what R89 says (`ReadDone`: Xt,
pc and nothing else, every byte of memory included). The pc clause and XZR are the spec's decisions D8
and D7. -/
def Obligations.MrsCompletesExactlyWhereItMayWithItsFrame : Prop :=
  ∀ (s : State) (t : Nat), t < 32 →
    (MayRead s → ∃ s', exec (.mrsIdAa64isar1El1 t) s = .next s') ∧
    (∀ s', exec (.mrsIdAa64isar1El1 t) s = .next s' → MayRead s ∧ ReadDone t s s')

/-- `MRS XZR, ID_AA64ISAR1_EL1` completes where any read does and writes no register (R73; the spec's
decision D7). -/
def Obligations.MrsToXzrWritesNoRegister : Prop :=
  ∀ s : State, MayRead s →
    ∃ s', exec (.mrsIdAa64isar1El1 31) s = .next s' ∧ s'.x = s.x ∧ readX s' 31 = 0#64

/-- The write form stops as UNDEFINED at every Exception level and on every operand (R75; the spec's own
decision D5), so no state follows in which V could have changed. -/
def Obligations.MsrIsUndefinedAtEveryLevel : Prop :=
  ∀ (s : State) (t : Nat), exec (.msrIdAa64isar1El1 t) s = .fault .undefinedInstr

/-- R100's table read both ways: when an instruction stops with a fault, and with which. The MSR line is the
spec's decision D5. -/
def Obligations.InstructionFaultsExactlyAsTabled : Prop :=
  ∀ (i : Instr) (s : State) (f : Fault), exec i s = .fault f ↔
    (∃ t, i = .mrsIdAa64isar1El1 t ∧
      ((f = .systemAccessTrap .el2 0x18 ∧
          ((s.pstate.el = .el0 ∧ s.cfg.haveIDST = true ∧ s.el2Enabled = true ∧ s.hcr.tge = true) ∨
           (s.pstate.el = .el1 ∧ s.el2Enabled = true ∧ s.hcr.tid3 = true))) ∨
       (f = .systemAccessTrap .el1 0x18 ∧ s.pstate.el = .el0 ∧ s.cfg.haveIDST = true ∧
          ¬ (s.el2Enabled = true ∧ s.hcr.tge = true)) ∨
       (f = .undefinedInstr ∧ s.pstate.el = .el0 ∧ s.cfg.haveIDST = false))) ∨
    (∃ t, i = .msrIdAa64isar1El1 t ∧ f = .undefinedInstr)

/-- Executing an instruction is never a refusal. For the MRS that is R105 ("a single execution reports
exactly one of" its outcomes); for the MSR it is the spec's decision D5 and the model's choice of assumption 9,
since R75 would let a model refuse that word. -/
def Obligations.NoInstructionIsRefused : Prop :=
  ∀ (i : Instr) (s : State) (r : Refusal), exec i s ≠ .refused r

/-- R108: what TID3 and TGE do, where they do nothing, and that no control reaches further. -/
def Obligations.HcrBitsControlOnlyTheseReads : Prop :=
  ∀ (v : Word) (idst en tge tid3 : Bool),
    access v .el1 idst true tge true = .trap .el2 0x18 ∧
    access v .el1 idst true tge false = .ret v ∧
    (∀ el, el ≠ .el1 → access v el idst en tge true = access v el idst en tge false) ∧
    access v .el0 true true true tid3 = .trap .el2 0x18 ∧
    access v .el0 true true false tid3 = .trap .el1 0x18 ∧
    (∀ el, el ≠ .el0 → access v el idst en true tid3 = access v el idst en false tid3) ∧
    (∀ el, access v el idst false tge tid3 = access v el idst false false false) ∧
    access v .el0 false en tge tid3 = .undefinedAccess ∧
    (∀ el code, access v el idst en tge tid3 ≠ .trap .el3 code) ∧
    (∀ el target code, el = .el2 ∨ el = .el3 → access v el idst en tge tid3 ≠ .trap target code) ∧
    (∀ w, access v .el0 idst en tge tid3 ≠ .ret w)

/-- R92: each of the inputs meets exactly one row of the decision table, and the access rule of R81 gives
that row's outcome. -/
def Obligations.AccessRuleIsTheDecisionTable : Prop :=
  ∀ (v : Word) (i : AccessInputs),
    (accessTable.filter (rowMatches i)).map (fun r => r.outcome.on v) = [accessOn v i]

/-- R92's count of the 64 assignments, level by level, by outcome. -/
def Obligations.AccessCensusOfAllInputs : Prop :=
  ∀ v : Word,
    allAccessInputs.length = 64 ∧
    (allAccessInputs.filter fun i => i.el = .el0 ∧ accessOn v i = .undefinedAccess).length = 8 ∧
    (allAccessInputs.filter fun i => i.el = .el0 ∧ accessOn v i = .trap .el1 0x18).length = 6 ∧
    (allAccessInputs.filter fun i => i.el = .el0 ∧ accessOn v i = .trap .el2 0x18).length = 2 ∧
    (allAccessInputs.filter fun i => i.el = .el1 ∧ accessOn v i = .ret v).length = 12 ∧
    (allAccessInputs.filter fun i => i.el = .el1 ∧ accessOn v i = .trap .el2 0x18).length = 4 ∧
    (allAccessInputs.filter fun i => i.el = .el2 ∧ accessOn v i = .ret v).length = 16 ∧
    (allAccessInputs.filter fun i => i.el = .el3 ∧ accessOn v i = .ret v).length = 16

/-- At EL0 no step completes, whatever instruction stands at pc (R84, R75, R116). -/
def Obligations.NoStepCompletesAtEl0 : Prop :=
  ∀ s s' : State, s.pstate.el = .el0 → step s ≠ .next s'

/-- A PE that may not read the register learns nothing of it: on two PEs that differ in V alone, a step
where reads are denied has the same outcome (R54: "A trapped or UNDEFINED attempt does not read the
register at all"). -/
def Obligations.DeniedReadRevealsNothingOfV : Prop :=
  ∀ (s : State) (v : Word), configWf s.cfg = true → configWf (s.withV v).cfg = true → ¬ MayRead s →
    step (s.withV v) = step s

/-! The register's layout and meaning. -/

/-- R11: the sixteen positions, the concatenation formula both ways, and the formula as a number. -/
def Obligations.FieldsAreTheSixteenHexDigitsOfV : Prop :=
  IdField.all.map (fun f => (f, f.hi, f.lo)) =
    [(.LS64, 63, 60), (.XS, 59, 56), (.I8MM, 55, 52), (.DGH, 51, 48), (.BF16, 47, 44),
     (.SPECRES, 43, 40), (.SB, 39, 36), (.FRINTTS, 35, 32), (.GPI, 31, 28), (.GPA, 27, 24),
     (.LRCPC, 23, 20), (.FCMA, 19, 16), (.JSCVT, 15, 12), (.API, 11, 8), (.APA, 7, 4), (.DPB, 3, 0)] ∧
  (∀ (V : Word) (f : IdField) (i : Nat), i < 4 → (idField V f).getLsbD i = V.getLsbD (f.lo + i)) ∧
  (∀ V : Word, assembleId (idField V) = V) ∧
  (∀ (g : IdField → BitVec 4) (f : IdField), idField (assembleId g) f = g f) ∧
  (∀ V : Word, V.toNat =
    idFieldNat V .LS64 * 2 ^ 60 + idFieldNat V .XS * 2 ^ 56 + idFieldNat V .I8MM * 2 ^ 52 +
    idFieldNat V .DGH * 2 ^ 48 + idFieldNat V .BF16 * 2 ^ 44 + idFieldNat V .SPECRES * 2 ^ 40 +
    idFieldNat V .SB * 2 ^ 36 + idFieldNat V .FRINTTS * 2 ^ 32 + idFieldNat V .GPI * 2 ^ 28 +
    idFieldNat V .GPA * 2 ^ 24 + idFieldNat V .LRCPC * 2 ^ 20 + idFieldNat V .FCMA * 2 ^ 16 +
    idFieldNat V .JSCVT * 2 ^ 12 + idFieldNat V .API * 2 ^ 8 + idFieldNat V .APA * 2 ^ 4 +
    idFieldNat V .DPB)

/-- R12: every one of the 64 bits belongs to exactly one field. -/
def Obligations.EveryBitBelongsToOneField : Prop :=
  ∀ b : Nat, b < 64 → (IdField.all.filter fun f => f.lo ≤ b ∧ b ≤ f.hi).length = 1

/-- A step refuses a configuration, before anything else, exactly when it breaks R30 as R14 to R29 spell it
(the spec's decisions D2, D3, D4). -/
def Obligations.StepRefusesExactlyIllFormedConfigurations : Prop :=
  ∀ s : State, (∃ c, step s = .refused (.configNotWellFormed c)) ↔ ¬ ConfigMeetsSpec s.cfg

/-- R31's collected table agrees with the sentences it was collected from, at every version (the spec's
readings D3 and D4). -/
def Obligations.PermittedTableAgreesWithSentences : Prop :=
  ∀ (a : ArchVersion) (simd : Bool) (f : IdField), f ≠ .API → f ≠ .APA →
    permittedValues a simd f = permittedBySentences a simd f

/-- On a well-formed value the predicates of R33 agree with the value tables of R14 to R29, both ways: a
predicate is true exactly when everything its row names is reported, and an item is reported exactly when some
true predicate's row names it. -/
def Obligations.PredicatesReportWhatTheValueTablesSay : Prop :=
  ∀ c : PEConfig, configWf c = true →
    (∀ p : HavePredicate, p.holds c.V = true ↔ ∀ r ∈ p.items, reports c.V r = true) ∧
    (∀ r : Reported, reports c.V r = true ↔ ∃ p : HavePredicate, r ∈ p.items ∧ p.holds c.V = true)

/-- From Armv8.6 exactly one address-authentication algorithm is implemented, with HaveEnhancedPAC2() TRUE
and HaveEnhancedPAC() FALSE, and HaveFPAC() and HaveFPACCombined() by the value (R31's pair rule, R32: the
spec's decisions D3 and D19, 90_conflicts.md C6). -/
def Obligations.AddressAuthenticationFromArmv86 : Prop :=
  ∀ c : PEConfig, configWf c = true → 6 ≤ c.archVersion.minor →
    ∃ a : Nat, 3 ≤ a ∧ a ≤ 5 ∧
      ((idFieldNat c.V .API = 0 ∧ idFieldNat c.V .APA = a ∧
          addressAuth c.V = some ⟨.qarma, false, true, decide (4 ≤ a), decide (a = 5)⟩) ∨
       (idFieldNat c.V .APA = 0 ∧ idFieldNat c.V .API = a ∧
          addressAuth c.V = some ⟨.implementationDefined, false, true, decide (4 ≤ a), decide (a = 5)⟩))

/-! The other registers the source names. -/

/-- R34: with API and APA both zero every TCR_ELx and SCTLR_ELx bit of its list reads zero and keeps no
write, and every access to a key register faults. What RES0 and "not allocated" mean is general knowledge
(93_implementation_defined.md G3, U7, U8), and which levels SCTLR_ELx names is assumption 10. -/
def Obligations.NoAddressAuthenticationMakesRes0 : Prop :=
  ∀ (s : State), idFieldNat s.cfg.V .API = 0 → idFieldNat s.cfg.V .APA = 0 →
    (∀ b : PeerBit, b ≠ .hcrxFGTnXS → b ≠ .hcrxFnXS →
      readPeerBit s b = .ok false ∧ ∀ v, writePeerBit b v s = .ok s) ∧
    (∀ k : ApKey, readApKey s k = .error (.keyNotAllocated k) ∧
      (∀ v, applyEvent s (.setApKey k v) = .fault (.keyNotAllocated k)) ∧
      (∀ n, applyEvent s (.getApKey n k) = .fault (.keyNotAllocated k)))

/-- With an algorithm implemented the same bits and key registers are ordinary storage: a write is read back,
every other bit and key register reads as before, and a key register can be read into x[n]. All of this, at every Exception level, is the model's choice
(assumption 10). -/
def Obligations.PeerRegistersKeepWrites : Prop :=
  ∀ (s : State), (idFieldNat s.cfg.V .API ≠ 0 ∨ idFieldNat s.cfg.V .APA ≠ 0) →
    (∀ (b : PeerBit) (v : Bool), b ≠ .hcrxFGTnXS → b ≠ .hcrxFnXS →
      ∃ s', writePeerBit b v s = .ok s' ∧ readPeerBit s' b = .ok v ∧
        (∀ b', b' ≠ b → readPeerBit s' b' = readPeerBit s b') ∧
        (∀ k, readApKey s' k = readApKey s k)) ∧
    (∀ (k : ApKey) (v : Word),
      ∃ s', applyEvent s (.setApKey k v) = .next s' ∧ readApKey s' k = .ok v ∧
        (∀ k', k' ≠ k → readApKey s' k' = readApKey s k') ∧
        (∀ b, readPeerBit s' b = readPeerBit s b)) ∧
    (∀ (k : ApKey) (n : Nat), n < 31 →
      ∃ v s', readApKey s k = .ok v ∧ applyEvent s (.getApKey n k) = .next s' ∧ readX s' n = v)

/-- ACCDATA_EL1 is accessible exactly when LS64 is 3 (R14) and the HCRX_EL2 fields exactly when XS is 1
(R15), as R40 collects them: there a write is taken and read back; elsewhere every read and every write
faults. Storage where supported, the fault elsewhere, and access from every Exception level are the model's
choices (assumption 10). -/
def Obligations.AccdataAndHcrxFieldsComeWithTheirFeature : Prop :=
  ∀ s : State,
    (idFieldNat s.cfg.V .LS64 = 3 →
      readAccdata s = .ok s.peers.accdata ∧
      ∀ v, ∃ s', writeAccdata v s = .ok s' ∧ readAccdata s' = .ok v) ∧
    (idFieldNat s.cfg.V .LS64 ≠ 3 →
      readAccdata s = .error .accdataNotSupported ∧
      ∀ v, writeAccdata v s = .error .accdataNotSupported) ∧
    (∀ b, b = .hcrxFGTnXS ∨ b = .hcrxFnXS →
      (idFieldNat s.cfg.V .XS = 1 →
        (∃ v, readPeerBit s b = .ok v) ∧
        ∀ v, ∃ s', writePeerBit b v s = .ok s' ∧ readPeerBit s' b = .ok v ∧
          ∀ b', b' ≠ b → readPeerBit s' b' = readPeerBit s b') ∧
      (idFieldNat s.cfg.V .XS ≠ 1 →
        readPeerBit s b = .error (.hcrxNotSupported b) ∧
        ∀ v, writePeerBit b v s = .error (.hcrxNotSupported b)))

/-! Encoding. -/

/-- The decoder, written from the fields of R72, agrees with the opcode table's mask and match on every
32-bit word (R78), and refuses every other word (R76). The layout is the spec's decision D6, the MSR row and
the refusal D5. -/
def Obligations.DecoderAgreesWithTheOpcodeTable : Prop :=
  ∀ w : InstrWord,
    (w &&& 0xFFFFFFE0#32 = 0xD5380620#32 → decodeWord w = .ok (.mrsIdAa64isar1El1 (w.toNat % 32))) ∧
    (w &&& 0xFFFFFFE0#32 = 0xD5180620#32 → decodeWord w = .ok (.msrIdAa64isar1El1 (w.toNat % 32))) ∧
    (w &&& 0xFFFFFFE0#32 ≠ 0xD5380620#32 → w &&& 0xFFFFFFE0#32 ≠ 0xD5180620#32 →
      decodeWord w = .error (.notThisHardware w))

/-- R79's six example encodings, byte by byte as they stand in memory. -/
def Obligations.ExampleEncodingsDecode : Prop :=
  decode [0x20#8, 0x06#8, 0x38#8, 0xD5#8] = .ok (.mrsIdAa64isar1El1 0, []) ∧
  decode [0x21#8, 0x06#8, 0x38#8, 0xD5#8] = .ok (.mrsIdAa64isar1El1 1, []) ∧
  decode [0x23#8, 0x06#8, 0x38#8, 0xD5#8] = .ok (.mrsIdAa64isar1El1 3, []) ∧
  decode [0x29#8, 0x06#8, 0x38#8, 0xD5#8] = .ok (.mrsIdAa64isar1El1 9, []) ∧
  decode [0x3E#8, 0x06#8, 0x38#8, 0xD5#8] = .ok (.mrsIdAa64isar1El1 30, []) ∧
  decode [0x3F#8, 0x06#8, 0x38#8, 0xD5#8] = .ok (.mrsIdAa64isar1El1 31, [])

/-- Decode and encode agree on every list of bytes: a list decodes to an instruction and a rest exactly when
the instruction is well-formed and the list is its four bytes before that rest. -/
def Obligations.DecodeAndEncodeAgreeOnBytes : Prop :=
  ∀ (bytes rest : List Byte) (i : Instr),
    decode bytes = .ok (i, rest) ↔ i.wellFormed = true ∧ bytes = encodeBytes i ++ rest

/-! The step. -/

/-- A step runs the decoded instruction: on a well-formed configuration, with pc aligned and the bytes there
decoding to i, step is exec of i at the same state (exec itself moves pc). That a fetch reads the bytes memory
holds at that step is the model's choice (assumption 7). -/
def Obligations.StepRunsTheDecodedInstruction : Prop :=
  ∀ (s : State) (i : Instr) (b0 b1 b2 b3 : Byte), configWf s.cfg = true → s.pc.toNat % 4 = 0 →
    memRead s.mem s.pc.toNat = some b0 → memRead s.mem (s.pc.toNat + 1) = some b1 →
    memRead s.mem (s.pc.toNat + 2) = some b2 → memRead s.mem (s.pc.toNat + 3) = some b3 →
    decode [b0, b1, b2, b3] = .ok (i, []) → step s = exec i s

/-- A well-formed instruction stored at an aligned pc, whatever memory held, is what the next step runs. That
the next fetch sees the stored bytes is the model's choice (assumption 7; assumption 16: the store stands for
the load of a program), since IFetchCoherence is OPEN (R60, D14). -/
def Obligations.StoredInstructionIsRunNext : Prop :=
  ∀ (s : State) (i : Instr), configWf s.cfg = true → s.pc.toNat % 4 = 0 → i.wellFormed = true →
    step (s.withFetchWord 32 (encode i).toNat) = exec i (s.withFetchWord 32 (encode i).toNat)

/-- A step refuses every word outside the opcode map, by name: not a no-op, and not UNDEFINED (R76; the
spec's decision D5). -/
def Obligations.StepRefusesWordsOutsideTheMap : Prop :=
  ∀ (s : State) (w : InstrWord), configWf s.cfg = true → s.pc.toNat % 4 = 0 →
    (∀ i, i < 4 → memRead s.mem (s.pc.toNat + i) = some (wordByte w i)) →
    w &&& 0xFFFFFFE0#32 ≠ 0xD5380620#32 → w &&& 0xFFFFFFE0#32 ≠ 0xD5180620#32 →
    step s = .refused (.notThisHardware (.notThisHardware w))

/-- A fetch from a misaligned pc raises a PC alignment fault (R53; general knowledge the spec adopts,
decision D14). -/
def Obligations.MisalignedPcFaults : Prop :=
  ∀ s : State, configWf s.cfg = true → s.pc.toNat % 4 ≠ 0 → step s = .fault (.pcAlignment s.pc)

/-- A completed step leaves pc aligned, inside the address space (R38, decision D8). -/
def Obligations.StepKeepsPcAligned : Prop :=
  ∀ s s' : State, step s = .next s' → s.pc.toNat + 4 < 2 ^ 64 →
    s.pc.toNat % 4 = 0 ∧ s'.pc.toNat % 4 = 0 ∧ s'.pc.toNat = s.pc.toNat + 4

/-- R103's offer for an enclosing machine: the syndrome put together from its fields is the number R103
gives, for every register number. General knowledge (93_implementation_defined.md G5; assumption 6). -/
def Obligations.OfferedSyndromeIsItsNumber : Prop :=
  ∀ t : Nat, t < 32 → (offeredSyndrome t).toNat = 0x6232000D + t * 2 ^ 5

/-! Invariants and histories. -/

/-- The state right after reset meets the invariant (with the model's own values for what the spec leaves
unspecified: assumptions 2, 3, 4). -/
def Obligations.ResetMeetsTheInvariant : Prop := State.reset.Inv

/-- Every step keeps the invariant: the configuration stays well-formed, the level stays an implemented one,
EL2Enabled() stays false where EL2 is absent, memory keeps its canonical form. -/
def Obligations.StepKeepsTheInvariant : Prop :=
  ∀ s s' : State, s.Inv → step s = .next s' → s'.Inv

/-- Every history of steps, resets and allowed doings of the enclosing machine keeps the invariant. -/
def Obligations.HistoriesKeepTheInvariant : Prop :=
  ∀ (es : List Event) (s s' : State), s.Inv → (∀ e ∈ es, eventOk s.cfg e = true) →
    runEvents es s = .next s' → s'.Inv

/-- Constancy (R42, R115, R120; the spec's decisions D1 and D16): whatever happened since (steps, resets,
changes of level and controls, writes of registers and memory), the register reads as it did, and a read
that completes delivers that value. -/
def Obligations.RegisterValueIsConstantAcrossHistories : Prop :=
  ∀ (es : List Event) (s s' : State), runEvents es s = .next s' →
    readIdReg s' = readIdReg s ∧
    ∀ t s'', t < 31 → exec (.mrsIdAa64isar1El1 t) s' = .next s'' → readX s'' t = readIdReg s

/-- k completed steps move pc by 4k (inside the address space) and leave every register either as it was or
holding V, and everything else as it was (R89 step by step; R125). -/
def Obligations.CompletedRunWritesOnlyV : Prop :=
  ∀ (k : Nat) (s s' : State), core.run k s = .next s' → s.pc.toNat + 4 * k < 2 ^ 64 →
    s'.pc.toNat = s.pc.toNat + 4 * k ∧
    (∀ n, readX s' n = readX s n ∨ readX s' n = s.cfg.V) ∧
    s'.cfg = s.cfg ∧ s'.pstate = s.pstate ∧ s'.el2Enabled = s.el2Enabled ∧ s'.hcr = s.hcr ∧
    s'.peers = s.peers ∧ ∀ a, memRead s'.mem a = memRead s.mem a

/-- A reset keeps V and the configuration and takes the drawn value for everything else, so each value the
spec leaves unspecified is free (R43, R120, R121, 93_implementation_defined.md U14; the spec's decision D16).
That the flags, the other registers and memory are among what a reset draws is the model's reading (assumptions
3, 4 and 10): R43's table does not name them. -/
def Obligations.ResetKeepsVAndDrawsTheRest : Prop :=
  ∀ (d : ResetDraw) (s : State),
    readIdReg (resetTo d s) = readIdReg s ∧ (resetTo d s).cfg = s.cfg ∧
    (resetTo d s).x = d.x ∧ (resetTo d s).pc = d.pc ∧
    (resetTo d s).pstate.el = d.inputs.el ∧ (resetTo d s).pstate.nzcv = d.nzcv ∧
    (resetTo d s).pstate.daif = d.daif ∧ (resetTo d s).el2Enabled = d.inputs.el2Enabled ∧
    (resetTo d s).hcr = d.inputs.hcr ∧ (resetTo d s).peers = d.peers ∧ (resetTo d s).mem = d.mem

/-- R32 on every well-formed value. With API and APA both zero the four functions have no value; otherwise the
non-zero one, a, gives them by R32's row (its cells "(d)" are the spec's choice D19) with the QARMA algorithm
for APA and an IMPLEMENTATION DEFINED one for API. Generic authentication is QARMA's where GPA is 1, an
IMPLEMENTATION DEFINED algorithm's where GPI is 1, and not implemented where both are zero. One of the cases
holds in each half. -/
def Obligations.PointerAuthenticationFollowsItsTable : Prop :=
  ∀ c : PEConfig, configWf c = true →
    ((idFieldNat c.V .API = 0 ∧ idFieldNat c.V .APA = 0 ∧ addressAuth c.V = none) ∨
     ∃ (a : Nat) (alg : AuthAlgorithm), 1 ≤ a ∧ a ≤ 5 ∧
       ((alg = .qarma ∧ idFieldNat c.V .API = 0 ∧ idFieldNat c.V .APA = a) ∨
        (alg = .implementationDefined ∧ idFieldNat c.V .APA = 0 ∧ idFieldNat c.V .API = a)) ∧
       ∃ info, addressAuth c.V = some info ∧ info.algorithm = alg ∧
         (info.haveEnhancedPAC = true ↔ a = 2) ∧ (info.haveEnhancedPAC2 = true ↔ 3 ≤ a) ∧
         (info.haveFPAC = true ↔ 4 ≤ a) ∧ (info.haveFPACCombined = true ↔ a = 5)) ∧
    ((idFieldNat c.V .GPI = 0 ∧ idFieldNat c.V .GPA = 0 ∧ genericAuth c.V = none) ∨
     (idFieldNat c.V .GPI = 0 ∧ idFieldNat c.V .GPA = 1 ∧ genericAuth c.V = some .qarma) ∨
     (idFieldNat c.V .GPI = 1 ∧ idFieldNat c.V .GPA = 0 ∧
       genericAuth c.V = some .implementationDefined))
end

