-- ==== Sys2Proof/Laws/State.lean ====
section
/-! SUPPORT. The small lemmas of the state and its updates: one per field per update. -/

namespace Sys2Proof.Machine

/-! `writeX` -/

@[simp] theorem writeX_cfg (t : Nat) (v : Word) (s : State) : (writeX t v s).cfg = s.cfg := by
  unfold writeX; split <;> rfl
@[simp] theorem writeX_pc (t : Nat) (v : Word) (s : State) : (writeX t v s).pc = s.pc := by
  unfold writeX; split <;> rfl
@[simp] theorem writeX_pstate (t : Nat) (v : Word) (s : State) : (writeX t v s).pstate = s.pstate := by
  unfold writeX; split <;> rfl
@[simp] theorem writeX_el2Enabled (t : Nat) (v : Word) (s : State) :
    (writeX t v s).el2Enabled = s.el2Enabled := by
  unfold writeX; split <;> rfl
@[simp] theorem writeX_hcr (t : Nat) (v : Word) (s : State) : (writeX t v s).hcr = s.hcr := by
  unfold writeX; split <;> rfl
@[simp] theorem writeX_peers (t : Nat) (v : Word) (s : State) : (writeX t v s).peers = s.peers := by
  unfold writeX; split <;> rfl
@[simp] theorem writeX_mem (t : Nat) (v : Word) (s : State) : (writeX t v s).mem = s.mem := by
  unfold writeX; split <;> rfl

/-! `completeRead` -/

@[simp] theorem completeRead_cfg (t : Nat) (v : Word) (s : State) : (completeRead t v s).cfg = s.cfg := by
  simp [completeRead]
@[simp] theorem completeRead_x (t : Nat) (v : Word) (s : State) :
    (completeRead t v s).x = (writeX t v s).x := rfl
@[simp] theorem completeRead_pc (t : Nat) (v : Word) (s : State) :
    (completeRead t v s).pc = nextPc s.pc := rfl
@[simp] theorem completeRead_pstate (t : Nat) (v : Word) (s : State) :
    (completeRead t v s).pstate = s.pstate := rfl
@[simp] theorem completeRead_el2Enabled (t : Nat) (v : Word) (s : State) :
    (completeRead t v s).el2Enabled = s.el2Enabled := by
  simp [completeRead]
@[simp] theorem completeRead_hcr (t : Nat) (v : Word) (s : State) : (completeRead t v s).hcr = s.hcr := by
  simp [completeRead]
@[simp] theorem completeRead_peers (t : Nat) (v : Word) (s : State) :
    (completeRead t v s).peers = s.peers := by
  simp [completeRead]
@[simp] theorem completeRead_mem (t : Nat) (v : Word) (s : State) : (completeRead t v s).mem = s.mem := by
  simp [completeRead]

/-! `State.withFetchWord` -/

@[simp] theorem withFetchWord_cfg (s : State) (n w : Nat) : (s.withFetchWord n w).cfg = s.cfg := rfl
@[simp] theorem withFetchWord_x (s : State) (n w : Nat) : (s.withFetchWord n w).x = s.x := rfl
@[simp] theorem withFetchWord_pc (s : State) (n w : Nat) : (s.withFetchWord n w).pc = s.pc := rfl
@[simp] theorem withFetchWord_pstate (s : State) (n w : Nat) :
    (s.withFetchWord n w).pstate = s.pstate := rfl
@[simp] theorem withFetchWord_el2Enabled (s : State) (n w : Nat) :
    (s.withFetchWord n w).el2Enabled = s.el2Enabled := rfl
@[simp] theorem withFetchWord_hcr (s : State) (n w : Nat) : (s.withFetchWord n w).hcr = s.hcr := rfl
@[simp] theorem withFetchWord_peers (s : State) (n w : Nat) : (s.withFetchWord n w).peers = s.peers := rfl
@[simp] theorem withFetchWord_mem (s : State) (n w : Nat) :
    (s.withFetchWord n w).mem = storeWordAt s.pc (tableWord n w) s.mem := rfl

/-! `State.withV` -/

@[simp] theorem withV_cfg (s : State) (v : Word) : (s.withV v).cfg = { s.cfg with V := v } := rfl
@[simp] theorem withV_x (s : State) (v : Word) : (s.withV v).x = s.x := rfl
@[simp] theorem withV_pc (s : State) (v : Word) : (s.withV v).pc = s.pc := rfl
@[simp] theorem withV_pstate (s : State) (v : Word) : (s.withV v).pstate = s.pstate := rfl
@[simp] theorem withV_el2Enabled (s : State) (v : Word) : (s.withV v).el2Enabled = s.el2Enabled := rfl
@[simp] theorem withV_hcr (s : State) (v : Word) : (s.withV v).hcr = s.hcr := rfl
@[simp] theorem withV_peers (s : State) (v : Word) : (s.withV v).peers = s.peers := rfl
@[simp] theorem withV_mem (s : State) (v : Word) : (s.withV v).mem = s.mem := rfl

/-! `resetTo` -/

@[simp] theorem resetTo_cfg (d : ResetDraw) (s : State) : (resetTo d s).cfg = s.cfg := rfl
@[simp] theorem resetTo_x (d : ResetDraw) (s : State) : (resetTo d s).x = d.x := rfl
@[simp] theorem resetTo_pc (d : ResetDraw) (s : State) : (resetTo d s).pc = d.pc := rfl
@[simp] theorem resetTo_pstate (d : ResetDraw) (s : State) :
    (resetTo d s).pstate = ⟨d.inputs.el, d.nzcv, d.daif⟩ := rfl
@[simp] theorem resetTo_el2Enabled (d : ResetDraw) (s : State) :
    (resetTo d s).el2Enabled = d.inputs.el2Enabled := rfl
@[simp] theorem resetTo_hcr (d : ResetDraw) (s : State) : (resetTo d s).hcr = d.inputs.hcr := rfl
@[simp] theorem resetTo_peers (d : ResetDraw) (s : State) : (resetTo d s).peers = d.peers := rfl
@[simp] theorem resetTo_mem (d : ResetDraw) (s : State) : (resetTo d s).mem = d.mem := rfl

/-- `State.reset` is the reset with the model's named draw. -/
theorem resetTo_namedDraw : resetTo namedDraw State.reset = State.reset := rfl

/-! Accesses to the other registers (R40). -/

/-- An access ends in a next state exactly when it succeeds, and in that state. -/
theorem finishPeerAccess_next {s s' : State} {o : Except Fault State} :
    finishPeerAccess s o = .next s' ↔ o = .ok s' := by
  cases o <;> simp [finishPeerAccess, takeException]

/-- A bit's write that succeeds changes at most the stored bits. -/
theorem writePeerBit_frame {b : PeerBit} {v : Bool} {s s' : State} (h : writePeerBit b v s = .ok s') :
    ∃ bits, s' = { s with peers.bits := bits } := by
  unfold writePeerBit at h
  split at h
  · exact ⟨_, (Except.ok.inj h).symm⟩
  · exact ⟨s.peers.bits, (Except.ok.inj h).symm⟩
  · cases h

/-- A key register's write that succeeds changes at most the stored keys. -/
theorem writeApKey_frame {k : ApKey} {v : Word} {s s' : State} (h : writeApKey k v s = .ok s') :
    ∃ keys, s' = { s with peers.keys := keys } := by
  unfold writeApKey at h
  split at h
  · exact ⟨_, (Except.ok.inj h).symm⟩
  · cases h

/-- ACCDATA_EL1's write that succeeds changes at most the stored value. -/
theorem writeAccdata_frame {v : Word} {s s' : State} (h : writeAccdata v s = .ok s') :
    ∃ w, s' = { s with peers.accdata := w } := by
  unfold writeAccdata at h
  split at h
  · exact ⟨_, (Except.ok.inj h).symm⟩
  · cases h

/-- A read into a general register that succeeds is a write of that register. -/
theorem map_writeX_ok {o : Except Fault Word} {n : Nat} {s s' : State}
    (h : o.map (fun v => writeX n v s) = .ok s') : ∃ v, o = .ok v ∧ s' = writeX n v s := by
  cases o with
  | ok v => exact ⟨v, rfl, (Except.ok.inj h).symm⟩
  | error f => cases h

end Sys2Proof.Machine
end

