-- ==== Sys2Proof/Laws/Config.lean ====
section
/-! SUPPORT. The configuration check and the places of the other registers, said once. -/

namespace Sys2Proof.Machine

/-- A configuration is well-formed when every clause of R30 holds. -/
theorem configWf_iff_holds {c : PEConfig} : configWf c = true ↔ ∀ k : WfClause, k.holds c = true := by
  simp only [configWf, failingClause, Option.isNone_iff_eq_none, List.find?_eq_none]
  constructor
  · intro h k
    have hk := h k (by cases k <;> decide)
    simpa using hk
  · intro h k _
    simp [h k]

/-- On a well-formed configuration every field holds a defined value (clause 1). -/
theorem idField_defined {c : PEConfig} (h : configWf c = true) (f : IdField) :
    idFieldNat c.V f ∈ definedValues f := by
  have h1 := configWf_iff_holds.mp h .definedFields
  simp only [WfClause.holds, List.all_eq_true] at h1
  simpa using h1 f (by cases f <;> decide)

/-- Two bits never share a place. -/
theorem peerBitIndex_inj {b b' : PeerBit} (h : peerBitIndex b = peerBitIndex b') : b = b' := by
  rcases b with _ | _ | _ | _ | _ | _ | _ | _ | ⟨_ | _ | _, _ | _ | _ | _⟩ <;>
    rcases b' with _ | _ | _ | _ | _ | _ | _ | _ | ⟨_ | _ | _, _ | _ | _ | _⟩ <;>
    first | rfl | (exfalso; revert h; decide)

/-- Two key registers never share a place. -/
theorem apKeyIndex_inj {k k' : ApKey} (h : apKeyIndex k = apKeyIndex k') : k = k' := by
  cases k <;> cases k' <;> first | rfl | (exfalso; revert h; decide)

/-- The condition of R34, as the two fields. -/
theorem noAddressAuth_iff {V : Word} :
    noAddressAuth V = true ↔ idFieldNat V .API = 0 ∧ idFieldNat V .APA = 0 := by
  simp [noAddressAuth]

end Sys2Proof.Machine
end

