-- ==== Sys2Proof/Laws/PerInstr.lean ====
section
/-! SUPPORT. A statement made instruction by instruction: the word of a well-formed instruction lies in its
row of the opcode table (R78) and carries its register number in Rt. -/

namespace Sys2Proof.Laws

/-- The `match` column of R78. -/
def tableMatch : Instr → InstrWord
  | .mrsIdAa64isar1El1 _ => 0xD5380620#32
  | .msrIdAa64isar1El1 _ => 0xD5180620#32

/-- The word of i meets its row's mask and match, and Rt is the register number. -/
def EncodesInRow.Statement (i : Instr) : Prop :=
  i.wellFormed = true →
    encode i &&& 0xFFFFFFE0#32 = tableMatch i ∧ (wordRt (encode i)).toNat = i.regNum

/-- The two facts, for every value of the five bits of Rt. -/
theorem sysRegWord_row (rt : BitVec 5) :
    (sysRegWord 1#1 idAa64isar1Selector rt &&& 0xFFFFFFE0#32 = 0xD5380620#32 ∧
      wordRt (sysRegWord 1#1 idAa64isar1Selector rt) = rt) ∧
    (sysRegWord 0#1 idAa64isar1Selector rt &&& 0xFFFFFFE0#32 = 0xD5180620#32 ∧
      wordRt (sysRegWord 0#1 idAa64isar1Selector rt) = rt) := by
  revert rt; decide

theorem EncodesInRow.mrsIdAa64isar1El1 (t : Nat) :
    EncodesInRow.Statement (.mrsIdAa64isar1El1 t) := by
  intro h
  have ht : t < 32 := by simpa [Instr.wellFormed] using h
  obtain ⟨⟨hm, hr⟩, -⟩ := sysRegWord_row (BitVec.ofNat 5 t)
  refine ⟨hm, ?_⟩
  show (wordRt (sysRegWord 1#1 idAa64isar1Selector (BitVec.ofNat 5 t))).toNat = t
  rw [hr, BitVec.toNat_ofNat]
  omega

theorem EncodesInRow.msrIdAa64isar1El1 (t : Nat) :
    EncodesInRow.Statement (.msrIdAa64isar1El1 t) := by
  intro h
  have ht : t < 32 := by simpa [Instr.wellFormed] using h
  obtain ⟨-, hm, hr⟩ := sysRegWord_row (BitVec.ofNat 5 t)
  refine ⟨hm, ?_⟩
  show (wordRt (sysRegWord 0#1 idAa64isar1Selector (BitVec.ofNat 5 t))).toNat = t
  rw [hr, BitVec.toNat_ofNat]
  omega

end Sys2Proof.Laws
end

