-- ==== Sys2Proof/Laws/Decode.lean ====
section
/-! SUPPORT. Words and their bytes. -/

namespace Sys2Proof

/-- The word of a word's own four bytes is the word. -/
theorem wordOfBytes_wordByte (w : InstrWord) :
    wordOfBytes (wordByte w 0) (wordByte w 1) (wordByte w 2) (wordByte w 3) = w := by
  apply BitVec.eq_of_getLsbD_eq
  intro i hi
  simp only [wordByte, wordOfBytes, BitVec.getLsbD_extractLsb', BitVec.getLsbD_append]
  interval_cases i <;> simp

/-- The four bytes of a word put together from four bytes are those bytes. -/
theorem bytesOfWord_wordOfBytes (b0 b1 b2 b3 : Byte) :
    bytesOfWord (wordOfBytes b0 b1 b2 b3) = [b0, b1, b2, b3] := by
  have h : ∀ i, i < 4 → wordByte (wordOfBytes b0 b1 b2 b3) i = [b0, b1, b2, b3][i]! := by
    intro i hi
    apply BitVec.eq_of_getLsbD_eq
    intro j hj
    simp only [wordByte, wordOfBytes, BitVec.getLsbD_extractLsb', BitVec.getLsbD_append]
    interval_cases i <;> interval_cases j <;> simp
  simp [bytesOfWord, h]

end Sys2Proof
end

