-- ==== Sys2Proof/Laws/Memory.lean ====
section
/-! SUPPORT. The laws of memory and of the fetch. -/

namespace Sys2Proof.Machine

@[simp] theorem memRead_nil (a : Nat) : memRead [] a = none := rfl

/-- A read after a write to the same address gives the byte written. -/
@[simp] theorem memRead_memWrite_same (m : List Host.Cell) (a : Nat) (b : Byte) :
    memRead (memWrite m a b) a = some b := by
  induction m with
  | nil => simp [memWrite, memRead]
  | cons c m ih =>
    obtain ⟨k, v⟩ := c
    by_cases h1 : a < k
    · simp [memWrite, memRead, h1]
    · by_cases h2 : a = k
      · simp [memWrite, memRead, h2]
      · simp [memWrite, memRead, h1, h2, Ne.symm h2, ih]

/-- A write leaves every other address alone. -/
theorem memRead_memWrite_ne {a a' : Nat} (h : a' ≠ a) (m : List Host.Cell) (b : Byte) :
    memRead (memWrite m a b) a' = memRead m a' := by
  induction m with
  | nil => simp [memWrite, memRead, h.symm, unlistedByte]
  | cons c m ih =>
    obtain ⟨k, v⟩ := c
    by_cases h1 : a < k
    · simp [memWrite, memRead, h1, h.symm]
    · by_cases h2 : a = k
      · subst h2; simp [memWrite, memRead, h.symm]
      · simp [memWrite, memRead, h1, h2, ih]

theorem memWf_iff {m : List Host.Cell} :
    memWf m = true ↔ (m.map Prod.fst).Pairwise (· < ·) ∧ ∀ c ∈ m, c.1 < 2 ^ 64 := by
  simp [memWf, List.all_eq_true]

/-- Every address a write leaves listed was listed before or is the one written. -/
theorem fst_mem_memWrite {m : List Host.Cell} {a : Nat} {b : Byte} {c : Host.Cell}
    (h : c ∈ memWrite m a b) : c.1 = a ∨ c ∈ m := by
  induction m with
  | nil => simp [memWrite] at h; simp [h]
  | cons d m ih =>
    obtain ⟨k, v⟩ := d
    unfold memWrite at h
    split at h
    · rcases List.mem_cons.mp h with rfl | h'
      · exact .inl rfl
      · exact .inr h'
    · split at h
      · rcases List.mem_cons.mp h with rfl | h'
        · exact .inl rfl
        · exact .inr (List.mem_cons_of_mem _ h')
      · rcases List.mem_cons.mp h with rfl | h'
        · exact .inr (List.mem_cons_self ..)
        · exact (ih h').imp id (List.mem_cons_of_mem _)

/-- A write keeps the canonical form. -/
theorem memWf_memWrite {m : List Host.Cell} {a : Nat} (b : Byte) (hm : memWf m = true)
    (ha : a < 2 ^ 64) : memWf (memWrite m a b) = true := by
  rw [memWf_iff] at hm ⊢
  obtain ⟨hs, hb⟩ := hm
  refine ⟨?_, fun c hc => ?_⟩
  · clear hb
    induction m with
    | nil => simp [memWrite]
    | cons d m ih =>
      obtain ⟨k, v⟩ := d
      simp only [List.map_cons, List.pairwise_cons] at hs
      unfold memWrite
      split
      · rename_i hlt
        simp only [List.map_cons, List.pairwise_cons]
        refine ⟨fun x hx => ?_, hs⟩
        rcases List.mem_cons.mp hx with rfl | hx'
        · exact hlt
        · exact lt_trans hlt (hs.1 x hx')
      · rename_i hnlt
        split
        · rename_i heq
          subst heq
          simpa using hs
        · rename_i hne
          simp only [List.map_cons, List.pairwise_cons]
          refine ⟨fun x hx => ?_, ih hs.2⟩
          obtain ⟨c, hc, rfl⟩ := List.mem_map.mp hx
          rcases fst_mem_memWrite hc with h | h
          · show k < c.1
            omega
          · exact hs.1 _ (List.mem_map_of_mem h)
  · rcases fst_mem_memWrite hc with h | h
    · omega
    · exact hb c h

theorem fetchAddr_lt (pc : Word) (i : Nat) : fetchAddr pc i < 2 ^ 64 := (pc + BitVec.ofNat 64 i).isLt

/-- Under an aligned pc the four fetched addresses are pc to pc + 3, without wrapping. -/
theorem fetchAddr_aligned {pc : Word} (h : pcAligned pc = true) {i : Nat} (hi : i < 4) :
    fetchAddr pc i = pc.toNat + i := by
  have h4 : pc.toNat % 4 = 0 := by simpa [pcAligned] using h
  have := pc.isLt
  simp only [fetchAddr, BitVec.toNat_add, BitVec.toNat_ofNat]
  omega

/-- Storing an instruction word keeps the canonical form. -/
theorem memWf_storeWordAt {m : List Host.Cell} (pc : Word) (w : InstrWord) (hm : memWf m = true) :
    memWf (storeWordAt pc w m) = true :=
  memWf_memWrite _ (memWf_memWrite _ (memWf_memWrite _ (memWf_memWrite _ hm (fetchAddr_lt pc 0))
    (fetchAddr_lt pc 1)) (fetchAddr_lt pc 2)) (fetchAddr_lt pc 3)

/-- Memory right after reset has the canonical form. -/
theorem memWf_reset : memWf State.reset.mem = true := rfl

/-- What the fetch does, said once: the four bytes at pc when it is aligned and they are there. -/
theorem fetch_ok {s : State} {b0 b1 b2 b3 : Byte} (ha : pcAligned s.pc = true)
    (h0 : memRead s.mem (fetchAddr s.pc 0) = some b0) (h1 : memRead s.mem (fetchAddr s.pc 1) = some b1)
    (h2 : memRead s.mem (fetchAddr s.pc 2) = some b2) (h3 : memRead s.mem (fetchAddr s.pc 3) = some b3) :
    fetch s = .ok [b0, b1, b2, b3] := by
  simp only [fetch, fetchByte, ha, h0, h1, h2, h3, if_true]
  rfl

/-- A fetch that answers gives four bytes, from an aligned pc. -/
theorem fetch_ok_inv {s : State} {bytes : List Byte} (h : fetch s = .ok bytes) :
    pcAligned s.pc = true ∧ ∃ b0 b1 b2 b3, bytes = [b0, b1, b2, b3] ∧
      memRead s.mem (fetchAddr s.pc 0) = some b0 ∧ memRead s.mem (fetchAddr s.pc 1) = some b1 ∧
      memRead s.mem (fetchAddr s.pc 2) = some b2 ∧ memRead s.mem (fetchAddr s.pc 3) = some b3 := by
  unfold fetch at h
  split at h
  · rename_i ha
    refine ⟨ha, ?_⟩
    unfold fetchByte at h
    cases h0 : memRead s.mem (fetchAddr s.pc 0) <;> rw [h0] at h
    · cases h
    cases h1 : memRead s.mem (fetchAddr s.pc 1) <;> rw [h1] at h
    · cases h
    cases h2 : memRead s.mem (fetchAddr s.pc 2) <;> rw [h2] at h
    · cases h
    cases h3 : memRead s.mem (fetchAddr s.pc 3) <;> rw [h3] at h
    · cases h
    cases h
    exact ⟨_, _, _, _, rfl, rfl, rfl, rfl, rfl⟩
  · cases h

end Sys2Proof.Machine
end

