-- ==== Sys2Proof/Laws/Ops.lean ====
section
/-! SUPPORT. One lemma for each shared operation: everything it can do. -/

namespace Sys2Proof.Machine

/-- XZR reads as zero (R37). -/
@[simp] theorem readX_xzr (s : State) : readX s 31 = 0#64 := rfl

/-- A register written reads as the value (R37). -/
theorem readX_writeX_same {t : Nat} (h : t < 31) (v : Word) (s : State) :
    readX (writeX t v s) t = v := by
  simp [readX, writeX, h]

/-- A write leaves every other register alone, and a write of XZR leaves all (R73). -/
theorem readX_writeX_other {t n : Nat} (h : n ≠ t ∨ t = 31) (v : Word) (s : State) :
    readX (writeX t v s) n = readX s n := by
  by_cases ht : t < 31
  · have hne : t ≠ n := by omega
    by_cases hn : n < 31 <;> simp [readX, writeX, ht, hn, hne]
  · simp [writeX, ht]

theorem readX_completeRead (t n : Nat) (v : Word) (s : State) :
    readX (completeRead t v s) n = readX (writeX t v s) n := rfl

/-- pc + 4 inside the address space (R38). -/
theorem nextPc_inside {pc : Word} (h : pc.toNat + 4 < 2 ^ 64) : nextPc pc = pc + 4#64 := if_pos h

/-- A completed read has the effects of R89 when the value is V. -/
theorem readDone_completeRead (t : Nat) (s : State) : ReadDone t s (completeRead t s.cfg.V s) where
  dest h := readX_writeX_same h _ s
  otherX _ h := readX_writeX_other h _ s
  pc h := nextPc_inside h
  config := completeRead_cfg t _ s
  pstate := completeRead_pstate t _ s
  el2Enabled := completeRead_el2Enabled t _ s
  hcr := completeRead_hcr t _ s
  peers := completeRead_peers t _ s
  memory a := by rw [completeRead_mem]

/-- When the access rule returns: never at EL0, at EL1 unless EL2 is enabled and TID3 is set, always at EL2
and EL3; and what it returns is the register. -/
theorem access_ret {v w : Word} {el : EL} {idst en tge tid3 : Bool}
    (h : access v el idst en tge tid3 = .ret w) :
    w = v ∧ ((el = .el1 ∧ (en = false ∨ tid3 = false)) ∨ el = .el2 ∨ el = .el3) := by
  unfold access at h
  cases el
  · exfalso
    revert h
    cases idst <;> cases en <;> cases tge <;> simp
  · cases en <;> cases tid3 <;> simp_all
  · simp_all
  · simp_all

/-- When the access rule traps: to EL1 or EL2, with code 0x18, from EL0 or EL1. -/
theorem access_trap {v : Word} {el target : EL} {idst en tge tid3 : Bool} {code : Nat}
    (h : access v el idst en tge tid3 = .trap target code) :
    code = 0x18 ∧
      ((el = .el0 ∧ idst = true ∧ target = if en && tge then .el2 else .el1) ∨
       (el = .el1 ∧ en = true ∧ tid3 = true ∧ target = .el2)) := by
  unfold access sysAccessCode at h
  cases el
  · cases idst <;> cases en <;> cases tge <;> simp_all
  · cases en <;> cases tid3 <;> simp_all
  · cases h
  · cases h

/-- When the access rule is UNDEFINED: at EL0 without FEAT_IDST. -/
theorem access_undefined {v : Word} {el : EL} {idst en tge tid3 : Bool}
    (h : access v el idst en tge tid3 = .undefinedAccess) : el = .el0 ∧ idst = false := by
  unfold access at h
  cases el
  · cases idst <;> cases en <;> cases tge <;> simp_all
  · cases en <;> cases tid3 <;> simp_all
  · cases h
  · cases h

/-- An access finishes in a next state only by returning, and then as `completeRead` says. -/
theorem finishAccess_next {t : Nat} {s s' : State} {o : AccessOutcome}
    (h : finishAccess t s o = .next s') : ∃ v, o = .ret v ∧ s' = completeRead t v s := by
  cases o with
  | ret v => exact ⟨v, rfl, by cases h; rfl⟩
  | trap target code => cases h
  | undefinedAccess => cases h

/-- An access never ends in a refusal. -/
theorem finishAccess_not_refused {t : Nat} {s : State} {o : AccessOutcome} {r : Refusal} :
    finishAccess t s o ≠ .refused r := by
  cases o <;> simp [finishAccess, takeException]

/-- The only instruction that reaches a next state is the read, and it does so only where reads may
succeed, with the effects of a completed read of V. -/
theorem exec_next_inv {i : Instr} {s s' : State} (h : exec i s = .next s') :
    ∃ t, i = .mrsIdAa64isar1El1 t ∧ MayRead s ∧ s' = completeRead t s.cfg.V s := by
  cases i with
  | mrsIdAa64isar1El1 t =>
    obtain ⟨v, hv, hs⟩ := finishAccess_next h
    obtain ⟨rfl, hel⟩ := access_ret hv
    exact ⟨t, rfl, hel, hs⟩
  | msrIdAa64isar1El1 t => cases h

end Sys2Proof.Machine
end

