-- ==== Sys2Proof/Laws/Step.lean ====
section
/-! SUPPORT. What one step, one event and one history can do. -/

namespace Sys2Proof.Machine

theorem configWf_iff {c : PEConfig} : configWf c = true ↔ failingClause c = none := by
  simp [configWf]

/-- A step that answers a next state ran a read, from a well-formed configuration, at a level where reads
may succeed. -/
theorem step_next_inv {s s' : State} (h : step s = .next s') :
    configWf s.cfg = true ∧ MayRead s ∧ ∃ t, s' = completeRead t s.cfg.V s := by
  unfold step at h
  split at h
  · cases h
  · rename_i hc
    split at h
    · cases h
    · split at h
      · obtain ⟨t, -, hm, hs⟩ := exec_next_inv h
        exact ⟨configWf_iff.mpr hc, hm, t, hs⟩
      · cases h

/-- No event changes the configuration, V among it. -/
theorem applyEvent_cfg {e : Event} {s s' : State} (h : applyEvent s e = .next s') : s'.cfg = s.cfg := by
  cases e with
  | stepPE =>
    obtain ⟨-, -, t, rfl⟩ := step_next_inv h
    exact completeRead_cfg ..
  | present i => cases h; rfl
  | setX n v => cases h; exact writeX_cfg ..
  | setPc v => cases h; rfl
  | setFlags n d => cases h; rfl
  | storeByte a b => cases h; rfl
  | setPeerBit b v => obtain ⟨_, rfl⟩ := writePeerBit_frame (finishPeerAccess_next.mp h); rfl
  | setApKey k v => obtain ⟨_, rfl⟩ := writeApKey_frame (finishPeerAccess_next.mp h); rfl
  | setAccdata v => obtain ⟨_, rfl⟩ := writeAccdata_frame (finishPeerAccess_next.mp h); rfl
  | getApKey n k => obtain ⟨_, -, rfl⟩ := map_writeX_ok (finishPeerAccess_next.mp h); exact writeX_cfg ..
  | getAccdata n => obtain ⟨_, -, rfl⟩ := map_writeX_ok (finishPeerAccess_next.mp h); exact writeX_cfg ..
  | resetPE d => cases h; rfl

/-- A run of one more step is a step and then the run. -/
theorem core_run_succ_inv {k : Nat} {s s' : State} (h : Sys2Proof.core.run (k + 1) s = .next s') :
    ∃ s1, step s = .next s1 ∧ Sys2Proof.core.run k s1 = .next s' := by
  simp only [Host.Core.run] at h
  split at h
  · rename_i s1 h1
    exact ⟨s1, h1, h⟩
  · cases h
  · cases h

/-- A property every event keeps is kept by every history. -/
theorem runEvents_keeps {P : State → Prop} {ok : Event → Prop}
    (hP : ∀ e s s', ok e → P s → applyEvent s e = .next s' → P s') :
    ∀ (es : List Event) (s s' : State), (∀ e ∈ es, ok e) → P s → runEvents es s = .next s' → P s'
  | [], s, s', _, hs, h => by cases h; exact hs
  | e :: es, s, s', hok, hs, h => by
    unfold runEvents at h
    split at h
    · rename_i s1 h1
      exact runEvents_keeps hP es s1 s' (fun e' he' => hok e' (List.mem_cons_of_mem _ he'))
        (hP e s s1 (hok e (List.mem_cons_self ..)) hs h1) h
    · cases h
    · cases h

end Sys2Proof.Machine
end

