-- ==== Sys2Proof/Tests/Slice0.lean ====
section
/-! SUPPORT. The model's own tests: the vectors of 95_test_vectors.md (its numbers, not the model's), the
well-formedness smoke test, and a witness for the hypotheses of every statement that has some. -/

namespace Sys2Proof.Tests

open Sys2Proof.Machine

/-! ## Well-formedness -/

/-- An instruction whose register number does not fit Rt is refused by the check (R72). -/
theorem test_wellFormed_refuses_register_32 :
    (Instr.mrsIdAa64isar1El1 32).wellFormed = false ∧ (Instr.msrIdAa64isar1El1 32).wellFormed = false ∧
    (Instr.mrsIdAa64isar1El1 31).wellFormed = true ∧ (Instr.msrIdAa64isar1El1 31).wellFormed = true := by
  decide

/-- A configuration of 95_test_vectors.md section 2.2: the parameters not shown there at their defaults. -/
def cfgOf (V : Word) (a : ArchVersion) : PEConfig := { exampleConfig with V := V, archVersion := a }

/-- Vectors W1 to W4, W9, W13b, W16b, W18a: well-formed. -/
theorem test_configs_well_formed :
    [cfgOf 0x0000000000000000#64 .v8_0, cfgOf 0x0000011101211012#64 .v8_5,
     cfgOf 0x3111111101211052#64 .v8_7orLater, cfgOf 0x0010111110211402#64 .v8_6,
     cfgOf 0x0010111101211032#64 .v8_6, { cfgOf 0x0000000000100001#64 .v8_3 with haveSIMDorFP := false },
     { cfgOf 0x0010011101211012#64 .v8_5 with haveSIMDandSVE := true, zfr0I8MM := 1#4 },
     cfgOf 0x0000000000000001#64 .v8_2].all PEConfig.wellFormed = true := by
  decide

/-- Vectors W5 to W8, W10 to W18b: the clause of R30 each one fails first. -/
theorem test_configs_ill_formed :
    [cfgOf 0x0000000011000000#64 .v8_0, cfgOf 0x0000000000000110#64 .v8_0,
     cfgOf 0x0000000000000003#64 .v8_0, cfgOf 0x0000000000300000#64 .v8_0,
     cfgOf 0x4000000000000000#64 .v8_0, cfgOf 0x0000000000000060#64 .v8_0,
     cfgOf 0x0200000000000000#64 .v8_0, cfgOf 0x0000011101211012#64 .v8_6,
     cfgOf 0x0010111101211332#64 .v8_6, cfgOf 0x0010111101211002#64 .v8_6,
     cfgOf 0x0010111101211022#64 .v8_6, cfgOf 0x0000000000101001#64 .v8_3,
     { cfgOf 0x0000000000111001#64 .v8_3 with haveSIMDorFP := false },
     cfgOf 0x0000000000211000#64 .v8_4, cfgOf 0x0111111101211052#64 .v8_7orLater,
     { cfgOf 0x0000011101211012#64 .v8_5 with haveSIMDandSVE := true, zfr0I8MM := 1#4 },
     { cfgOf 0x0001000000000000#64 .v8_0 with dghHasEffect := false },
     { cfgOf 0x0000000000000001#64 .v8_3 with haveSIMDorFP := false }].map failingClause =
    [some .genericExclusive, some .addressExclusive, some .definedFields, some .definedFields,
     some .definedFields, some .definedFields, some .definedFields, some .permittedAtVersion,
     some .addressExclusive, some .permittedAtVersion, some .permittedAtVersion,
     some .permittedAtVersion, some .permittedAtVersion, some .permittedAtVersion,
     some .permittedAtVersion, some .zfr0Agrees, some .dghEffect, some .permittedAtVersion] := by
  decide

/-! ## The register's fields and meaning -/

/-- Vectors F5 and F3: every field's position. -/
theorem test_field_positions :
    IdField.all.map (idFieldNat 0xFEDCBA9876543210#64) =
      [15, 14, 13, 12, 11, 10, 9, 8, 7, 6, 5, 4, 3, 2, 1, 0] ∧
    IdField.all.map (idFieldNat 0x3111111101211052#64) =
      [3, 1, 1, 1, 1, 1, 1, 1, 0, 1, 2, 1, 1, 0, 5, 2] := by
  decide

/-- Vectors Q1 to Q6. -/
theorem test_pointer_authentication_predicates :
    [0x0000000000000000#64, 0x0000011101211012#64, 0x3111111101211052#64, 0x0010111110211402#64,
     0x0010111101211032#64, 0x0000000000100201#64].map (fun V => (addressAuth V, genericAuth V)) =
    [(none, none),
     (some ⟨.qarma, false, false, false, false⟩, some .qarma),
     (some ⟨.qarma, false, true, true, true⟩, some .qarma),
     (some ⟨.implementationDefined, false, true, true, false⟩, some .implementationDefined),
     (some ⟨.qarma, false, true, false, false⟩, some .qarma),
     (some ⟨.implementationDefined, true, false, false, false⟩, none)] := by
  decide

/-- Vectors I1 to I4. -/
theorem test_availability_predicates :
    [0x0000000000000000#64, 0x0000011101211012#64, 0x3111111101211052#64, 0x2000000000100001#64].map
      (fun V => HavePredicate.all.filter (HavePredicate.holds V)) =
    [[], [.SPECRES, .SB, .FRINTTS, .GenericAuth, .LRCPC, .LRCPC2, .FCMA, .JSCVT, .AddressAuth, .DPB, .DPB2],
     HavePredicate.all, [.LS64, .LS64_V, .LRCPC, .DPB]] := by
  decide

/-- R14 to R29: the feature names met by P1's V, with FEAT_PAuth as the source prints it (C5). -/
theorem test_feature_values :
    (Feature.values .FEAT_PAuth, Feature.values .FEAT_DPB2) =
      (([.API, .APA], [0, 1, 2]), ([.DPB], [2])) := by
  decide

/-! ## Encoding -/

/-- The word of `MRS X9, ID_AA64ISAR1_EL1` written out bit by bit from R72's table (E2). -/
theorem test_mrs_x9_word_bit_by_bit :
    decodeWord (0b1101010100#10 ++ 1#1 ++ 0b11#2 ++ 0b000#3 ++ 0b0000#4 ++ 0b0110#4 ++ 0b001#3 ++ 0b01001#5)
      = .ok (.mrsIdAa64isar1El1 9) := by
  decide

/-- The write form's word with X3, bit by bit: R72's layout with L = 0 (R75). -/
theorem test_msr_x3_word_bit_by_bit :
    decodeWord (0b1101010100#10 ++ 0#1 ++ 0b11#2 ++ 0b000#3 ++ 0b0000#4 ++ 0b0110#4 ++ 0b001#3 ++ 0b00011#5)
      = .ok (.msrIdAa64isar1El1 3) := by
  decide

/-- Vectors E1 to E12, through the host's question. -/
theorem test_decode_table_words :
    [0xD5380620, 0xD5380629, 0xD538063E, 0xD538063F, 0xD5380600, 0xD5380640, 0xD5380720, 0xD5381620,
     0xD5390620, 0xD5300620, 0xD5180620, 0x55380620].map (decodeTableWord 32) =
    [some (.mrsIdAa64isar1El1 0), some (.mrsIdAa64isar1El1 9), some (.mrsIdAa64isar1El1 30),
     some (.mrsIdAa64isar1El1 31), none, none, none, none, none, none, some (.msrIdAa64isar1El1 0),
     none] := by
  decide

/-- Section 2.5: `encode(t) = 0xD5380620 + t`, and fewer than four bytes are no instruction. -/
theorem test_encode_and_truncated :
    (encode (.mrsIdAa64isar1El1 0)).toNat = 0xD5380620 ∧ (encode (.mrsIdAa64isar1El1 31)).toNat = 0xD538063F ∧
    (encode (.msrIdAa64isar1El1 0)).toNat = 0xD5180620 ∧
    decode [0x20#8, 0x06#8, 0x38#8] = .error .truncated := by
  decide

/-- Section 2.5's syndromes: t = 0, 3, 31. -/
theorem test_offered_syndromes :
    [0, 3, 31].map offeredSyndrome = [0x6232000D#32, 0x6232006D#32, 0x623203ED#32] := by
  decide

/-- R79's assembly column and R70's generic name. -/
theorem test_assembly_text :
    asmText (.mrsIdAa64isar1El1 9) = "MRS X9, ID_AA64ISAR1_EL1".toList ∧
    asmText (.mrsIdAa64isar1El1 30) = "MRS X30, ID_AA64ISAR1_EL1".toList ∧
    asmText (.mrsIdAa64isar1El1 31) = "MRS XZR, ID_AA64ISAR1_EL1".toList ∧
    asmText (.msrIdAa64isar1El1 0) = "MSR ID_AA64ISAR1_EL1, X0".toList ∧
    genericName idAa64isar1Selector = "S3_0_C0_C6_1".toList := by
  decide

/-! ## The access rule and single steps -/

/-- Vectors A1 to A12 (a "-" taken at false). -/
theorem test_access_vectors :
    [access 7#64 .el0 false false false false, access 7#64 .el0 false true true true,
     access 7#64 .el0 true true true false, access 7#64 .el0 true true false true,
     access 7#64 .el0 true false true true, access 7#64 .el1 false true false true,
     access 7#64 .el1 true true true true, access 7#64 .el1 false true false false,
     access 7#64 .el1 false false false true, access 7#64 .el2 false true true true,
     access 7#64 .el3 false false true true, access 7#64 .el3 false false false false] =
    [.undefinedAccess, .undefinedAccess, .trap .el2 0x18, .trap .el1 0x18, .trap .el1 0x18,
     .trap .el2 0x18, .trap .el2 0x18, .ret 7#64, .ret 7#64, .ret 7#64, .ret 7#64, .ret 7#64] := by
  decide

/-- A state like those of section 3: V of vector W2, one word stored at pc. -/
def stateAt (pc : Word) (el : EL) (idst en tge tid3 : Bool) (w : Nat) : State :=
  State.withFetchWord
    { State.reset with cfg.haveIDST := idst, pc := pc, pstate.el := el, el2Enabled := en, hcr := ⟨tge, tid3⟩ } 32 w

/-- The parts of a next state a test looks at. -/
def seen (n : Nat) : Host.Outcome State Fault Refusal → Option (Word × Word)
  | .next s => some (readX s n, s.pc)
  | .fault _ => none
  | .refused _ => none

/-- The fault of an outcome. -/
def faultOf : Host.Outcome State Fault Refusal → Option Fault
  | .next _ => none
  | .fault f => some f
  | .refused _ => none

/-- The refusal of an outcome. -/
def refusalOf : Host.Outcome State Fault Refusal → Option Refusal
  | .next _ => none
  | .fault _ => none
  | .refused r => some r

/-- Program P1's first step and P4's first step (XZR: only pc changes). -/
theorem test_mrs_step_returns :
    seen 0 (step (stateAt 0x1000#64 .el1 false true false false 0xD5380620)) =
      some (0x0000011101211012#64, 0x1004#64) ∧
    seen 30 (step (stateAt 0x4000#64 .el3 false true true true 0xD538063F)) = some (0#64, 0x4004#64) := by
  decide

/-- Programs P2, P2b, P2c and P3: the faults. -/
theorem test_mrs_step_faults :
    faultOf (step (stateAt 0x2000#64 .el0 true true false true 0xD5380623)) =
      some (.systemAccessTrap .el1 0x18) ∧
    faultOf (step (stateAt 0x2000#64 .el0 true true true true 0xD5380623)) =
      some (.systemAccessTrap .el2 0x18) ∧
    faultOf (step (stateAt 0x2000#64 .el0 false true true true 0xD5380623)) = some .undefinedInstr ∧
    faultOf (step (stateAt 0x3000#64 .el1 false true false true 0xD5380629)) =
      some (.systemAccessTrap .el2 0x18) := by
  decide

/-- Program P5: the write form at EL3. -/
theorem test_msr_step_is_undefined :
    faultOf (step (stateAt 0x5000#64 .el3 false false false false 0xD5180620)) = some .undefinedInstr := by
  decide

/-- What the step refuses or stops before any instruction runs: an ill-formed configuration (W7a), a word
outside the map (E5), a misaligned pc (R53), no byte at pc (D14). -/
theorem test_step_stops_before_running :
    refusalOf (step { State.reset with cfg.V := 0x0000000000000003#64 }) =
      some (.configNotWellFormed .definedFields) ∧
    refusalOf (step (stateAt 0x1000#64 .el3 false false false false 0xD5380600)) =
      some (.notThisHardware (.notThisHardware 0xD5380600#32)) ∧
    faultOf (step (stateAt 0x1002#64 .el3 false false false false 0xD5380620)) =
      some (.pcAlignment 0x1002#64) ∧
    faultOf (step State.reset) = some (.fetchNoByte 0) := by
  decide

/-- A write of memory is read back, its neighbours are left, and the form stays canonical. -/
theorem test_memory :
    memRead (memWrite (memWrite [] 9 1#8) 4 2#8) 4 = some 2#8 ∧
    memWrite (memWrite [] 9 1#8) 4 2#8 = [(4, 2#8), (9, 1#8)] ∧
    memWf [(9, 1#8), (4, 2#8)] = false ∧ memRead [] 4 = none := by
  decide

/-! ## Witnesses: the hypotheses of each statement can be met -/

/-- The state of section 3 with nothing stored. -/
def bare (el : EL) (idst en tge tid3 : Bool) : State :=
  { State.reset with cfg.haveIDST := idst, pstate.el := el, el2Enabled := en, hcr := ⟨tge, tid3⟩ }

/-- A configuration without address authentication (vector W1). -/
def noPauth : State := { State.reset with cfg.V := 0#64, cfg.archVersion := .v8_0 }

theorem witness_MrsAtEl1Returns :
    (bare .el1 false true true false).pstate.el = .el1 ∧ (bare .el1 false true true false).hcr.tid3 = false ∧
    (bare .el1 false false true true).pstate.el = .el1 ∧ (bare .el1 false false true true).el2Enabled = false ∧
    (0 < 32 ∧ 0 < 31) ∧ (30 < 32 ∧ 30 < 31) ∧ 31 < 32 := by
  decide
theorem witness_MrsAtEl2Returns :
    (bare .el2 false true true true).pstate.el = .el2 ∧ 0 < 31 ∧ 30 < 31 ∧ 31 < 32 := by decide
theorem witness_MrsAtEl3Returns :
    (bare .el3 false true true true).pstate.el = .el3 ∧ 0 < 31 ∧ 30 < 31 ∧ 31 < 32 := by decide
theorem witness_MrsAtEl0UnderTgeTrapsToEl2 :
    (bare .el0 true true true false).pstate.el = .el0 ∧ (bare .el0 true true true false).cfg.haveIDST = true ∧
    (bare .el0 true true true false).el2Enabled = true ∧ (bare .el0 true true true false).hcr.tge = true := by
  decide
theorem witness_MrsAtEl0TrapsToEl1 :
    (bare .el0 true true false true).pstate.el = .el0 ∧ (bare .el0 true true false true).cfg.haveIDST = true ∧
    (bare .el0 true true false true).hcr.tge = false ∧ (bare .el0 true false true true).el2Enabled = false := by
  decide
theorem witness_MrsAtEl0WithoutIdstIsUndefined :
    (bare .el0 false true true true).pstate.el = .el0 ∧
    (bare .el0 false true true true).cfg.haveIDST = false := by
  decide
theorem witness_MrsAtEl1UnderTid3TrapsToEl2 :
    (bare .el1 true true true true).pstate.el = .el1 ∧ (bare .el1 true true true true).el2Enabled = true ∧
    (bare .el1 true true true true).hcr.tid3 = true := by
  decide

theorem mayRead_el3 (idst en tge tid3 : Bool) : MayRead (bare .el3 idst en tge tid3) := .inr (.inr rfl)

/-- Both clauses, with an ordinary destination, the last one, and XZR. -/
theorem witness_MrsCompletesExactlyWhereItMayWithItsFrame :
    MayRead (bare .el3 false true true true) ∧
    (∃ s', exec (.mrsIdAa64isar1El1 0) (bare .el3 false true true true) = .next s') ∧
    (∃ s', exec (.mrsIdAa64isar1El1 30) (bare .el3 false true true true) = .next s') ∧
    (∃ s', exec (.mrsIdAa64isar1El1 31) (bare .el3 false true true true) = .next s') :=
  ⟨mayRead_el3 .., ⟨_, rfl⟩, ⟨_, rfl⟩, ⟨_, rfl⟩⟩
theorem witness_MrsToXzrWritesNoRegister : MayRead (bare .el3 false true true true) := mayRead_el3 ..

/-- The read completes at the last aligned pc too, where pc + 4 leaves the address space. -/
theorem witness_ReadDone_at_the_top :
    ∃ s', exec (.mrsIdAa64isar1El1 0) { bare .el3 false true true true with pc := 0xFFFFFFFFFFFFFFFC#64 } =
      .next s' :=
  ⟨_, rfl⟩

theorem witness_NoStepCompletesAtEl0 : (bare .el0 true true true true).pstate.el = .el0 := by decide
theorem witness_DeniedReadRevealsNothingOfV :
    configWf (bare .el0 true true true true).cfg = true ∧
    configWf ((bare .el0 true true true true).withV 0x0000011101211022#64).cfg = true ∧
    ¬ MayRead (bare .el0 true true true true) :=
  ⟨by decide, by decide, by intro h; rcases h with ⟨h, -⟩ | h | h <;> cases h⟩
theorem witness_EveryBitBelongsToOneField : 0 < 64 ∧ 63 < 64 := by decide
theorem witness_FieldsAreTheSixteenHexDigitsOfV : 0 < 4 ∧ 3 < 4 := by decide
theorem witness_PermittedTableAgreesWithSentences :
    IdField.LS64 ≠ .API ∧ IdField.LS64 ≠ .APA ∧ IdField.DPB ≠ .API ∧ IdField.DPB ≠ .APA := by decide
theorem witness_PredicatesReportWhatTheValueTablesSay :
    configWf exampleConfig = true ∧ configWf (cfgOf 0x3111111101211052#64 .v8_7orLater) = true := by
  decide

/-- R33's row of HaveLS64_ACCDATA: all "ST64B*" (R7) and ACCDATA_EL1; vector I4's V reports ST64BV alone of the
two it adds to ST64B. -/
theorem test_ls64_accdata_row :
    HavePredicate.items .LS64_ACCDATA = [.ST64B, .ST64BV, .ST64BOther, .ACCDATA_EL1] ∧
    reports 0x2000000000100001#64 .ST64BV = true ∧ reports 0x2000000000100001#64 .ST64BOther = false := by
  decide
theorem witness_PointerAuthenticationFollowsItsTable :
    configWf (cfgOf 0x0000000000000000#64 .v8_0) = true ∧ configWf (cfgOf 0x0000011101211012#64 .v8_5) = true ∧
    configWf (cfgOf 0x0000000000100201#64 .v8_2) = true ∧
    configWf (cfgOf 0x3111111101211052#64 .v8_7orLater) = true ∧
    configWf (cfgOf 0x0010111110211402#64 .v8_6) = true := by
  decide

/-- Both fields, at both ends of the range: W4 (API 4), W9 (APA 3), W3 (APA 5). -/
theorem witness_AddressAuthenticationFromArmv86 :
    configWf (cfgOf 0x0010111101211032#64 .v8_6) = true ∧ 6 ≤ ArchVersion.minor .v8_6 ∧
    configWf (cfgOf 0x3111111101211052#64 .v8_7orLater) = true ∧
    configWf (cfgOf 0x0010111110211402#64 .v8_6) = true := by
  decide
theorem witness_NoAddressAuthenticationMakesRes0 :
    idFieldNat noPauth.cfg.V .API = 0 ∧ idFieldNat noPauth.cfg.V .APA = 0 ∧
    PeerBit.tcrEl1TBID ≠ .hcrxFGTnXS ∧ PeerBit.sctlr .el3 .EnDB ≠ .hcrxFnXS := by
  decide
theorem witness_PeerRegistersKeepWrites :
    idFieldNat State.reset.cfg.V .APA ≠ 0 ∧ PeerBit.tcrEl1TBID ≠ .hcrxFGTnXS ∧
    PeerBit.tcrEl1TBID ≠ .hcrxFnXS ∧ PeerBit.sctlr .el3 .EnDB ≠ .tcrEl1TBID ∧
    ApKey.APDBKeyLo ≠ .APIAKeyHi ∧ 0 < 31 ∧ 30 < 31 := by
  decide

/-- Each clause: vector W3's PE has both registers, State.reset's has neither. -/
theorem witness_AccdataAndHcrxFieldsComeWithTheirFeature :
    idFieldNat (State.reset.withV 0x3111111101211052#64).cfg.V .LS64 = 3 ∧
    idFieldNat (State.reset.withV 0x3111111101211052#64).cfg.V .XS = 1 ∧
    idFieldNat State.reset.cfg.V .LS64 ≠ 3 ∧ idFieldNat State.reset.cfg.V .XS ≠ 1 := by
  decide

/-- 93_implementation_defined.md U8: a write and a read of a key register that is not allocated fault. -/
theorem test_unallocated_key_faults :
    faultOf (applyEvent noPauth (.setApKey .APIAKeyHi 5#64)) = some (.keyNotAllocated .APIAKeyHi) ∧
    faultOf (applyEvent noPauth (.getApKey 0 .APDBKeyLo)) = some (.keyNotAllocated .APDBKeyLo) ∧
    (readApKey noPauth .APIBKeyLo matches .error (.keyNotAllocated .APIBKeyLo)) = true := by
  decide
theorem witness_StepRefusesExactlyIllFormedConfigurations :
    ¬ ConfigMeetsSpec (cfgOf 0x0000000000000003#64 .v8_0) :=
  fun h => absurd h.dpb (by decide)

/-- The first and the last word of each row, and the two words next to the rows. -/
theorem witness_DecoderAgreesWithTheOpcodeTable :
    0xD5380620#32 &&& 0xFFFFFFE0#32 = 0xD5380620#32 ∧ 0xD538063F#32 &&& 0xFFFFFFE0#32 = 0xD5380620#32 ∧
    0xD5180620#32 &&& 0xFFFFFFE0#32 = 0xD5180620#32 ∧ 0xD518063F#32 &&& 0xFFFFFFE0#32 = 0xD5180620#32 ∧
    0xD5380640#32 &&& 0xFFFFFFE0#32 ≠ 0xD5380620#32 ∧ 0xD5380640#32 &&& 0xFFFFFFE0#32 ≠ 0xD5180620#32 := by
  decide

/-- A well-formed configuration, an aligned pc, and the four bytes of `MRS X0` there; also at the last aligned
pc. -/
theorem witness_StepRunsTheDecodedInstruction :
    configWf (stateAt 0x1000#64 .el3 false true true true 0xD5380620).cfg = true ∧
    (stateAt 0x1000#64 .el3 false true true true 0xD5380620).pc.toNat % 4 = 0 ∧
    memRead (stateAt 0x1000#64 .el3 false true true true 0xD5380620).mem 0x1000 = some 0x20#8 ∧
    memRead (stateAt 0x1000#64 .el3 false true true true 0xD5380620).mem 0x1001 = some 0x06#8 ∧
    memRead (stateAt 0x1000#64 .el3 false true true true 0xD5380620).mem 0x1002 = some 0x38#8 ∧
    memRead (stateAt 0x1000#64 .el3 false true true true 0xD5380620).mem 0x1003 = some 0xD5#8 ∧
    memRead (stateAt 0xFFFFFFFFFFFFFFFC#64 .el3 false true true true 0xD5380620).mem 0xFFFFFFFFFFFFFFFF =
      some 0xD5#8 ∧
    decode [0x20#8, 0x06#8, 0x38#8, 0xD5#8] = .ok (.mrsIdAa64isar1El1 0, []) := by
  decide
theorem witness_StoredInstructionIsRunNext :
    configWf State.reset.cfg = true ∧ State.reset.pc.toNat % 4 = 0 ∧
    (Instr.mrsIdAa64isar1El1 31).wellFormed = true ∧ (Instr.msrIdAa64isar1El1 0).wellFormed = true := by
  decide
theorem witness_StepRefusesWordsOutsideTheMap :
    (∀ i, i < 4 → memRead (stateAt 0x1000#64 .el3 false true true true 0xD5380600).mem (0x1000 + i) =
      some (wordByte 0xD5380600#32 i)) ∧
    0xD5380600#32 &&& 0xFFFFFFE0#32 ≠ 0xD5380620#32 ∧ 0xD5380600#32 &&& 0xFFFFFFE0#32 ≠ 0xD5180620#32 := by
  decide
theorem witness_MisalignedPcFaults :
    configWf (stateAt 1#64 .el3 false true true true 0).cfg = true ∧ (1#64).toNat % 4 ≠ 0 ∧
    (3#64).toNat % 4 ≠ 0 := by
  decide
theorem witness_StepKeepsPcAligned :
    (∃ s', step (stateAt 0xFFFFFFFFFFFFFFF8#64 .el3 false true true true 0xD5380620) = .next s') ∧
    (0xFFFFFFFFFFFFFFF8#64).toNat + 4 < 2 ^ 64 :=
  ⟨⟨_, rfl⟩, by decide⟩
theorem witness_OfferedSyndromeIsItsNumber : 0 < 32 ∧ 31 < 32 := by decide
theorem witness_StepKeepsTheInvariant :
    (stateAt 0x1000#64 .el2 false true true true 0xD5380620).Inv ∧
    ∃ s', step (stateAt 0x1000#64 .el2 false true true true 0xD5380620) = .next s' :=
  ⟨by decide, _, rfl⟩

/-- A history: the level changes, memory is written, the PE steps, a reset follows. -/
def history : List Event :=
  [.present ⟨.el1, true, ⟨false, false⟩⟩, .setPeerBit .tcrEl3TBID true, .storeByte 0x2000#64 1#8, .stepPE,
   .resetPE namedDraw]

theorem witness_HistoriesKeepTheInvariant :
    (stateAt 0x1000#64 .el2 false true true true 0xD5380620).Inv ∧
    (∀ e ∈ history, eventOk (stateAt 0x1000#64 .el2 false true true true 0xD5380620).cfg e = true) ∧
    ∃ s', runEvents history (stateAt 0x1000#64 .el2 false true true true 0xD5380620) = .next s' :=
  ⟨by decide, by decide, _, rfl⟩
theorem witness_RegisterValueIsConstantAcrossHistories :
    (∃ s', runEvents history (stateAt 0x1000#64 .el2 false true true true 0xD5380620) = .next s' ∧
      ∃ s'', exec (.mrsIdAa64isar1El1 30) s' = .next s'') ∧ 30 < 31 :=
  ⟨⟨_, rfl, _, rfl⟩, by decide⟩
theorem witness_CompletedRunWritesOnlyV :
    (∃ s', Sys2Proof.core.run 1 (stateAt 0x1000#64 .el1 false true false false 0xD5380620) = .next s') ∧
    (0x1000#64).toNat + 4 * 1 < 2 ^ 64 :=
  ⟨⟨_, rfl⟩, by decide⟩

end Sys2Proof.Tests
end

section
/-! The layout of ID_AA64ISAR1_EL1 (R11, R12): V as bits, as the concatenation of its fields, and as a
number. -/

namespace Sys2Proof.Machine

/-- Bit i of a field is bit lo + i of V (R11). -/
theorem getLsbD_idField (V : Word) (f : IdField) {i : Nat} (hi : i < 4) :
    (idField V f).getLsbD i = V.getLsbD (f.lo + i) := by
  simp [idField, hi]

/-- The concatenation formula puts bit i of a field's value at bit lo + i. -/
theorem getLsbD_assembleId (g : IdField → BitVec 4) (f : IdField) {i : Nat} (hi : i < 4) :
    (assembleId g).getLsbD (f.lo + i) = (g f).getLsbD i := by
  simp only [assembleId, BitVec.getLsbD_append]
  cases f <;> interval_cases i <;> rfl

/-- The fields are adjacent slices of V, so each concatenation joins two slices into one, up to all of V. -/
theorem assembleId_idField (V : Word) : assembleId (idField V) = V := by
  simp only [assembleId, idField, IdField.lo]
  repeat rw [BitVec.extractLsb'_append_extractLsb'_eq_extractLsb' (by rfl)]
  exact BitVec.extractLsb'_eq_self

theorem idField_assembleId (g : IdField → BitVec 4) (f : IdField) : idField (assembleId g) f = g f := by
  apply BitVec.eq_of_getLsbD_eq
  intro i hi
  rw [getLsbD_idField _ f hi, getLsbD_assembleId g f hi]

/-- A concatenation as a number: the high part is scaled past the low part, and they do not overlap. -/
theorem toNat_append_eq_add {m n : Nat} (x : BitVec m) (y : BitVec n) :
    (x ++ y).toNat = x.toNat * 2 ^ n + y.toNat := by
  rw [BitVec.toNat_append, ← Nat.shiftLeft_add_eq_or_of_lt y.isLt, Nat.shiftLeft_eq]

/-- The concatenation formula as a number: the sixteen values are its hexadecimal digits. -/
theorem toNat_assembleId (g : IdField → BitVec 4) :
    (assembleId g).toNat =
      (g .LS64).toNat * 2 ^ 60 + (g .XS).toNat * 2 ^ 56 + (g .I8MM).toNat * 2 ^ 52 +
      (g .DGH).toNat * 2 ^ 48 + (g .BF16).toNat * 2 ^ 44 + (g .SPECRES).toNat * 2 ^ 40 +
      (g .SB).toNat * 2 ^ 36 + (g .FRINTTS).toNat * 2 ^ 32 + (g .GPI).toNat * 2 ^ 28 +
      (g .GPA).toNat * 2 ^ 24 + (g .LRCPC).toNat * 2 ^ 20 + (g .FCMA).toNat * 2 ^ 16 +
      (g .JSCVT).toNat * 2 ^ 12 + (g .API).toNat * 2 ^ 8 + (g .APA).toNat * 2 ^ 4 +
      (g .DPB).toNat := by
  simp only [assembleId, toNat_append_eq_add]
  omega

/-- A bit lies in the field of its own hexadecimal digit: every field starts at a multiple of four. -/
theorem IdField.mem_bits_iff (f : IdField) (b : Nat) : (f.lo ≤ b ∧ b ≤ f.hi) ↔ f.lo / 4 = b / 4 := by
  have h4 : f.lo % 4 = 0 := by cases f <;> rfl
  unfold IdField.hi
  omega

/-- Each of the sixteen hexadecimal digits is the digit of one field. -/
theorem IdField.one_field_per_digit :
    ∀ d < 16, (IdField.all.filter fun f => f.lo / 4 = d).length = 1 := by
  decide

/-- Settles O18. The number of V is the number of the concatenation of V's own fields. -/
theorem fieldsAreTheSixteenHexDigitsOfV : Obligations.FieldsAreTheSixteenHexDigitsOfV := by
  refine ⟨rfl, fun V f _ hi => getLsbD_idField V f hi, assembleId_idField, idField_assembleId, fun V => ?_⟩
  calc V.toNat = (assembleId (idField V)).toNat := by rw [assembleId_idField]
    _ = _ := toNat_assembleId (idField V)

/-- Settles O19: the field of bit b is the one of digit b / 4. -/
theorem everyBitBelongsToOneField : Obligations.EveryBitBelongsToOneField := by
  intro b hb
  simp only [IdField.mem_bits_iff]
  exact IdField.one_field_per_digit (b / 4) (by omega)

end Sys2Proof.Machine
end

section
/-! The accesses to the other registers the source names (R34, R40): where each one is there, and what an
access reads, stores and leaves alone. -/

namespace Sys2Proof.Machine

/-! Which registers are there. -/

/-- V's condition of R34 alone decides on the TCR_ELx and SCTLR_ELx bits. -/
theorem peerBitPresence_tcrSctlr (V : Word) {b : PeerBit} (h1 : b ≠ .hcrxFGTnXS) (h2 : b ≠ .hcrxFnXS) :
    peerBitPresence V b = if noAddressAuth V then .res0 else .present := by
  cases b with
  | hcrxFGTnXS => exact absurd rfl h1
  | hcrxFnXS => exact absurd rfl h2
  | _ => rfl

/-- V.XS alone decides on the HCRX_EL2 fields (R15). -/
theorem peerBitPresence_hcrx (V : Word) {b : PeerBit} (h : b = .hcrxFGTnXS ∨ b = .hcrxFnXS) :
    peerBitPresence V b = if idFieldNat V .XS = 1 then .present else .absent := by
  rcases h with rfl | rfl <;> simp [peerBitPresence, HavePredicate.holds]

theorem noAddressAuth_eq_false_iff {V : Word} :
    noAddressAuth V = false ↔ idFieldNat V .API ≠ 0 ∨ idFieldNat V .APA ≠ 0 := by
  rw [← Bool.not_eq_true, noAddressAuth_iff, not_and_or]

theorem apKeysAllocated_iff {V : Word} :
    apKeysAllocated V = true ↔ idFieldNat V .API ≠ 0 ∨ idFieldNat V .APA ≠ 0 := by
  rw [apKeysAllocated, Bool.not_eq_true', noAddressAuth_eq_false_iff]

theorem accdataSupported_iff {V : Word} : accdataSupported V = true ↔ idFieldNat V .LS64 = 3 := by
  simp [accdataSupported, HavePredicate.holds]

/-! The bits. -/

section PeerBits

variable {s : State} {b : PeerBit}

theorem readPeerBit_present (h : peerBitPresence s.cfg.V b = .present) :
    readPeerBit s b = .ok s.peers.bits[peerBitIndex b] := by
  simp [readPeerBit, readIdReg, h]

theorem readPeerBit_res0 (h : peerBitPresence s.cfg.V b = .res0) : readPeerBit s b = .ok false := by
  simp [readPeerBit, readIdReg, h]

theorem readPeerBit_absent (h : peerBitPresence s.cfg.V b = .absent) :
    readPeerBit s b = .error (.hcrxNotSupported b) := by
  simp [readPeerBit, readIdReg, h]

theorem writePeerBit_present (h : peerBitPresence s.cfg.V b = .present) (v : Bool) :
    writePeerBit b v s =
      .ok { s with peers.bits := s.peers.bits.set (peerBitIndex b) v (peerBitIndex b).isLt } := by
  simp [writePeerBit, readIdReg, h]

theorem writePeerBit_res0 (h : peerBitPresence s.cfg.V b = .res0) (v : Bool) :
    writePeerBit b v s = .ok s := by
  simp [writePeerBit, readIdReg, h]

theorem writePeerBit_absent (h : peerBitPresence s.cfg.V b = .absent) (v : Bool) :
    writePeerBit b v s = .error (.hcrxNotSupported b) := by
  simp [writePeerBit, readIdReg, h]

/-- What a bit reads as depends on V and its own stored bit only. -/
theorem readPeerBit_congr {s' : State} (hV : s'.cfg.V = s.cfg.V)
    (hb : s'.peers.bits[peerBitIndex b] = s.peers.bits[peerBitIndex b]) :
    readPeerBit s' b = readPeerBit s b := by
  unfold readPeerBit readIdReg
  rw [hV, hb]

/-- What a key register reads as depends on V and its own stored value only. -/
theorem readApKey_congr {s' : State} {k : ApKey} (hV : s'.cfg.V = s.cfg.V)
    (hk : s'.peers.keys[apKeyIndex k] = s.peers.keys[apKeyIndex k]) :
    readApKey s' k = readApKey s k := by
  unfold readApKey readIdReg
  rw [hV, hk]

/-- A bit that is there is storage: a write is taken and read back, and nothing else reads differently. -/
theorem writePeerBit_stores (h : peerBitPresence s.cfg.V b = .present) (v : Bool) :
    ∃ s', writePeerBit b v s = .ok s' ∧ readPeerBit s' b = .ok v ∧
      (∀ b', b' ≠ b → readPeerBit s' b' = readPeerBit s b') ∧
      (∀ k, readApKey s' k = readApKey s k) := by
  refine ⟨_, writePeerBit_present h v, ?_, fun b' hne => ?_, fun k => readApKey_congr rfl rfl⟩
  · exact Eq.trans (readPeerBit_present h) (by simp)
  · have hidx : (peerBitIndex b).val ≠ peerBitIndex b' := fun h => hne (peerBitIndex_inj (Fin.ext h)).symm
    exact readPeerBit_congr rfl (Vector.getElem_set_ne (peerBitIndex b).isLt (peerBitIndex b').isLt hidx)

end PeerBits

/-! The key registers. -/

section ApKeys

variable {s : State} {k : ApKey}

theorem readApKey_allocated (h : apKeysAllocated s.cfg.V = true) :
    readApKey s k = .ok s.peers.keys[apKeyIndex k] := if_pos h

theorem readApKey_notAllocated (h : apKeysAllocated s.cfg.V ≠ true) :
    readApKey s k = .error (.keyNotAllocated k) := if_neg h

theorem writeApKey_allocated (h : apKeysAllocated s.cfg.V = true) (v : Word) :
    writeApKey k v s =
      .ok { s with peers.keys := s.peers.keys.set (apKeyIndex k) v (apKeyIndex k).isLt } := if_pos h

theorem writeApKey_notAllocated (h : apKeysAllocated s.cfg.V ≠ true) (v : Word) :
    writeApKey k v s = .error (.keyNotAllocated k) := if_neg h

/-- Allocated key registers are storage: a write is taken and read back, and nothing else reads
differently. -/
theorem writeApKey_stores (h : apKeysAllocated s.cfg.V = true) (v : Word) :
    ∃ s', writeApKey k v s = .ok s' ∧ readApKey s' k = .ok v ∧
      (∀ k', k' ≠ k → readApKey s' k' = readApKey s k') ∧
      (∀ b, readPeerBit s' b = readPeerBit s b) := by
  refine ⟨_, writeApKey_allocated h v, ?_, fun k' hne => ?_, fun b => readPeerBit_congr rfl rfl⟩
  · exact Eq.trans (readApKey_allocated h) (by simp)
  · have hidx : (apKeyIndex k).val ≠ apKeyIndex k' := fun h => hne (apKeyIndex_inj (Fin.ext h)).symm
    exact readApKey_congr rfl (Vector.getElem_set_ne (apKeyIndex k).isLt (apKeyIndex k').isLt hidx)

/-- The event of reading an allocated key register puts its value into x[n]. -/
theorem applyEvent_getApKey_allocated (h : apKeysAllocated s.cfg.V = true) (n : Nat) :
    applyEvent s (.getApKey n k) = .next (writeX n s.peers.keys[apKeyIndex k] s) := by
  simp only [applyEvent, readApKey_allocated h, Except.map, finishPeerAccess]

/-- Both events on a key register that is not allocated stop with its fault
(93_implementation_defined.md U8). -/
theorem applyEvent_setApKey_notAllocated (h : apKeysAllocated s.cfg.V ≠ true) (v : Word) :
    applyEvent s (.setApKey k v) = .fault (.keyNotAllocated k) := by
  simp only [applyEvent, writeApKey_notAllocated h, finishPeerAccess, takeException]

theorem applyEvent_getApKey_notAllocated (h : apKeysAllocated s.cfg.V ≠ true) (n : Nat) :
    applyEvent s (.getApKey n k) = .fault (.keyNotAllocated k) := by
  simp only [applyEvent, readApKey_notAllocated h, Except.map, finishPeerAccess, takeException]

end ApKeys

/-! ACCDATA_EL1. -/

section Accdata

variable {s : State}

theorem readAccdata_supported (h : accdataSupported s.cfg.V = true) :
    readAccdata s = .ok s.peers.accdata := if_pos h

theorem readAccdata_notSupported (h : accdataSupported s.cfg.V ≠ true) :
    readAccdata s = .error .accdataNotSupported := if_neg h

theorem writeAccdata_supported (h : accdataSupported s.cfg.V = true) (v : Word) :
    writeAccdata v s = .ok { s with peers.accdata := v } := if_pos h

theorem writeAccdata_notSupported (h : accdataSupported s.cfg.V ≠ true) (v : Word) :
    writeAccdata v s = .error .accdataNotSupported := if_neg h

end Accdata

/-! The statements. -/

/-- Settles O24: R34's condition makes the bits RES0 and leaves the key registers unallocated. -/
theorem noAddressAuthenticationMakesRes0 : Obligations.NoAddressAuthenticationMakesRes0 := by
  intro s hAPI hAPA
  have hno : noAddressAuth s.cfg.V = true := noAddressAuth_iff.mpr ⟨hAPI, hAPA⟩
  have hkeys : apKeysAllocated s.cfg.V ≠ true := by simp [apKeysAllocated, hno]
  refine ⟨fun b h1 h2 => ?_, fun k => ?_⟩
  · have hres0 : peerBitPresence s.cfg.V b = .res0 := by rw [peerBitPresence_tcrSctlr _ h1 h2, if_pos hno]
    exact ⟨readPeerBit_res0 hres0, writePeerBit_res0 hres0⟩
  · exact ⟨readApKey_notAllocated hkeys, applyEvent_setApKey_notAllocated hkeys,
      applyEvent_getApKey_notAllocated hkeys⟩

/-- Settles O25: with an algorithm the bits are present and the key registers allocated, so both are
storage. -/
theorem peerRegistersKeepWrites : Obligations.PeerRegistersKeepWrites := by
  intro s hauth
  have hkeys : apKeysAllocated s.cfg.V = true := apKeysAllocated_iff.mpr hauth
  refine ⟨fun b v h1 h2 => ?_, fun k v => ?_, fun k n hn => ?_⟩
  · have hpresent : peerBitPresence s.cfg.V b = .present := by
      rw [peerBitPresence_tcrSctlr _ h1 h2, noAddressAuth_eq_false_iff.mpr hauth]
      rfl
    exact writePeerBit_stores hpresent v
  · obtain ⟨s', hw, hstored⟩ := writeApKey_stores (k := k) hkeys v
    exact ⟨s', finishPeerAccess_next.mpr hw, hstored⟩
  · exact ⟨_, _, readApKey_allocated hkeys, applyEvent_getApKey_allocated hkeys n,
      readX_writeX_same hn _ s⟩

/-- Settles O26: LS64 decides on ACCDATA_EL1 and XS on the HCRX_EL2 fields; each is storage where it is
there and faults where it is not. -/
theorem accdataAndHcrxFieldsComeWithTheirFeature :
    Obligations.AccdataAndHcrxFieldsComeWithTheirFeature := by
  intro s
  refine ⟨fun h => ?_, fun h => ?_, fun b hb => ⟨fun h => ?_, fun h => ?_⟩⟩
  · have hsup : accdataSupported s.cfg.V = true := accdataSupported_iff.mpr h
    exact ⟨readAccdata_supported hsup, fun v =>
      ⟨_, writeAccdata_supported hsup v, readAccdata_supported hsup⟩⟩
  · have hsup : accdataSupported s.cfg.V ≠ true := mt accdataSupported_iff.mp h
    exact ⟨readAccdata_notSupported hsup, writeAccdata_notSupported hsup⟩
  · have hpresent : peerBitPresence s.cfg.V b = .present := by rw [peerBitPresence_hcrx _ hb, if_pos h]
    refine ⟨⟨_, readPeerBit_present hpresent⟩, fun v => ?_⟩
    obtain ⟨s', hw, hr, hbits, -⟩ := writePeerBit_stores hpresent v
    exact ⟨s', hw, hr, hbits⟩
  · have habsent : peerBitPresence s.cfg.V b = .absent := by rw [peerBitPresence_hcrx _ hb, if_neg h]
    exact ⟨readPeerBit_absent habsent, writePeerBit_absent habsent⟩

end Sys2Proof.Machine
end

section
/-! The fields of an instruction word (R72) beside the opcode table's mask and match (R78), and the meaning of
the write form (R75). -/

namespace Sys2Proof

/-- Equal concatenations have equal parts. -/
theorem bitVec_append_inj {m n : Nat} {x x' : BitVec m} {y y' : BitVec n} :
    x ++ y = x' ++ y' ↔ x = x' ∧ y = y' := by
  refine ⟨fun h => ⟨?_, ?_⟩, fun ⟨hx, hy⟩ => by rw [hx, hy]⟩
  · simpa only [BitVec.extractLsb'_append_eq_left] using congrArg (BitVec.extractLsb' n m) h
  · simpa only [BitVec.extractLsb'_append_eq_right] using congrArg (BitVec.extractLsb' 0 n) h

/-- R72's fields are adjacent slices of the word and together the whole of it. -/
theorem append_fields_eq_self (w : InstrWord) :
    wordFixed w ++ wordL w ++ (wordSelector w).op0 ++ (wordSelector w).op1 ++ (wordSelector w).crn ++
      (wordSelector w).crm ++ (wordSelector w).op2 ++ wordRt w = w := by
  simp only [wordFixed, wordL, wordSelector, wordRt]
  repeat rw [BitVec.extractLsb'_append_extractLsb'_eq_extractLsb' (by rfl)]
  exact BitVec.extractLsb'_eq_self

/-- A word is R72's layout of an L, a selector and an Rt exactly when it has R72's fixed bits and these
fields. The equality is read at the width written as the sum of the fields' widths, so that the parts of the
two concatenations can be compared. -/
theorem eq_sysRegWord_iff {w : InstrWord} {l : BitVec 1} {r : SysRegSelector} {rt : BitVec 5} :
    w = sysRegWord l r rt ↔
      wordFixed w = sysRegFixed ∧ wordL w = l ∧ wordSelector w = r ∧ wordRt w = rt := by
  conv_lhs => rw [← append_fields_eq_self w, sysRegWord]
  change @Eq (BitVec (10 + 1 + 2 + 3 + 4 + 4 + 3 + 5)) _ _ ↔ _
  rcases r with ⟨op0, op1, crn, crm, op2⟩
  simp only [bitVec_append_inj, wordSelector, SysRegSelector.mk.injEq, and_assoc]

/-! The mask of R78 clears Rt and keeps every other field. -/

@[simp] theorem wordFixed_masked (w : InstrWord) : wordFixed (w &&& 0xFFFFFFE0#32) = wordFixed w := by
  rw [wordFixed, BitVec.extractLsb'_and]
  exact BitVec.and_allOnes

@[simp] theorem wordL_masked (w : InstrWord) : wordL (w &&& 0xFFFFFFE0#32) = wordL w := by
  rw [wordL, BitVec.extractLsb'_and]
  exact BitVec.and_allOnes

@[simp] theorem wordSelector_masked (w : InstrWord) :
    wordSelector (w &&& 0xFFFFFFE0#32) = wordSelector w := by
  simp only [wordSelector, BitVec.extractLsb'_and, SysRegSelector.mk.injEq]
  exact ⟨BitVec.and_allOnes, BitVec.and_allOnes, BitVec.and_allOnes, BitVec.and_allOnes,
    BitVec.and_allOnes⟩

@[simp] theorem wordRt_masked (w : InstrWord) : wordRt (w &&& 0xFFFFFFE0#32) = 0#5 := by
  rw [wordRt, BitVec.extractLsb'_and]
  exact BitVec.and_zero

/-- Mask and match say of a word what its fields say: the fixed bits, L and the selector, whatever Rt is. -/
theorem masked_eq_sysRegWord_iff {w : InstrWord} {l : BitVec 1} {r : SysRegSelector} :
    w &&& 0xFFFFFFE0#32 = sysRegWord l r 0#5 ↔
      wordFixed w = sysRegFixed ∧ wordL w = l ∧ wordSelector w = r := by
  simp [eq_sysRegWord_iff]

/-! The match column of R78 is R72's layout with Rt zero. -/

theorem mrsMatch_eq_sysRegWord : 0xD5380620#32 = sysRegWord 1#1 idAa64isar1Selector 0#5 := by decide

theorem msrMatch_eq_sysRegWord : 0xD5180620#32 = sysRegWord 0#1 idAa64isar1Selector 0#5 := by decide

theorem wordRt_toNat (w : InstrWord) : (wordRt w).toNat = w.toNat % 32 := by
  simp [wordRt, BitVec.extractLsb'_toNat]

/-! What the decoder answers, row by row. -/

theorem decodeWord_mrsRow {w : InstrWord} (h : w &&& 0xFFFFFFE0#32 = 0xD5380620#32) :
    decodeWord w = .ok (.mrsIdAa64isar1El1 (wordRt w).toNat) := by
  obtain ⟨hfixed, hl, hsel⟩ := masked_eq_sysRegWord_iff.mp (h.trans mrsMatch_eq_sysRegWord)
  rw [decodeWord, if_pos ⟨hfixed, hsel⟩, if_pos hl]

theorem decodeWord_msrRow {w : InstrWord} (h : w &&& 0xFFFFFFE0#32 = 0xD5180620#32) :
    decodeWord w = .ok (.msrIdAa64isar1El1 (wordRt w).toNat) := by
  obtain ⟨hfixed, hl, hsel⟩ := masked_eq_sysRegWord_iff.mp (h.trans msrMatch_eq_sysRegWord)
  have hread : wordL w ≠ 1#1 := by rw [hl]; decide
  rw [decodeWord, if_pos ⟨hfixed, hsel⟩, if_neg hread]

/-- A word with the fixed bits and the selector is in the row its L names, so a word of neither row is
refused (R76). -/
theorem decodeWord_outsideRows {w : InstrWord} (hmrs : w &&& 0xFFFFFFE0#32 ≠ 0xD5380620#32)
    (hmsr : w &&& 0xFFFFFFE0#32 ≠ 0xD5180620#32) : decodeWord w = .error (.notThisHardware w) := by
  refine if_neg fun ⟨hfixed, hsel⟩ => ?_
  rcases BitVec.eq_zero_or_eq_one (wordL w) with hl | hl
  · exact hmsr ((masked_eq_sysRegWord_iff.mpr ⟨hfixed, hl, hsel⟩).trans msrMatch_eq_sysRegWord.symm)
  · exact hmrs ((masked_eq_sysRegWord_iff.mpr ⟨hfixed, hl, hsel⟩).trans mrsMatch_eq_sysRegWord.symm)

/-- Settles O27: mask and match are the field tests, and Rt is the word modulo 32. -/
theorem decoderAgreesWithTheOpcodeTable : Obligations.DecoderAgreesWithTheOpcodeTable := by
  intro w
  rw [← wordRt_toNat]
  exact ⟨decodeWord_mrsRow, decodeWord_msrRow, decodeWord_outsideRows⟩

end Sys2Proof

namespace Sys2Proof.Machine

/-- The write form stops whatever the level, the configuration and the operand are (R75). -/
@[simp] theorem exec_msrIdAa64isar1El1 (t : Nat) (s : State) :
    exec (.msrIdAa64isar1El1 t) s = .fault .undefinedInstr := by
  rw [exec, execMsrIdAa64isar1El1, takeException]

/-- Settles O10. -/
theorem msrIsUndefinedAtEveryLevel : Obligations.MsrIsUndefinedAtEveryLevel :=
  fun s t => exec_msrIdAa64isar1El1 t s

end Sys2Proof.Machine
end

section
/-! The read of ID_AA64ISAR1_EL1 (R80 to R92): what the access rule answers on a state, where the MRS completes
and where it stops, and what a stop may depend on. -/

namespace Sys2Proof.Machine

/-! The access rule on a state. -/

/-- R86 to R88: where a read may succeed, the rule returns the register. -/
theorem accessIdReg_of_mayRead {s : State} (h : MayRead s) : accessIdReg s = .ret s.cfg.V := by
  rw [accessIdReg, readIdReg]
  rcases h with ⟨hel, hen | htid3⟩ | hel | hel
  · rw [hel, hen]; rfl
  · rw [hel, htid3, access, Bool.and_false]; rfl
  · rw [hel]; rfl
  · rw [hel]; rfl

/-- R82, R83: at EL0 with FEAT_IDST the rule traps, to EL2 when EL2 is enabled and TGE set and else to EL1. -/
theorem accessIdReg_el0_idst {s : State} (hel : s.pstate.el = .el0) (hidst : s.cfg.haveIDST = true) :
    accessIdReg s = .trap (if s.el2Enabled = true ∧ s.hcr.tge = true then .el2 else .el1) 0x18 := by
  rw [accessIdReg, hel, hidst]
  by_cases h : s.el2Enabled = true ∧ s.hcr.tge = true <;> simp [access, sysAccessCode, h]

/-- R84. -/
theorem accessIdReg_el0_noIdst {s : State} (hel : s.pstate.el = .el0) (hidst : s.cfg.haveIDST = false) :
    accessIdReg s = .undefinedAccess := by
  rw [accessIdReg, hel, hidst]; rfl

/-- R85. -/
theorem accessIdReg_el1_tid3 {s : State} (hel : s.pstate.el = .el1) (hen : s.el2Enabled = true)
    (htid3 : s.hcr.tid3 = true) : accessIdReg s = .trap .el2 0x18 := by
  rw [accessIdReg, hel, hen, htid3]; rfl

/-- R84's last sentence: at EL0 no read may succeed. -/
theorem not_mayRead_of_el0 {s : State} (hel : s.pstate.el = .el0) : ¬ MayRead s := by
  simp [MayRead, hel]

/-! The MRS. -/

theorem exec_mrsIdAa64isar1El1 (t : Nat) (s : State) :
    exec (.mrsIdAa64isar1El1 t) s = finishAccess t s (accessIdReg s) := rfl

theorem exec_mrs_of_mayRead {s : State} (h : MayRead s) (t : Nat) :
    exec (.mrsIdAa64isar1El1 t) s = .next (completeRead t s.cfg.V s) := by
  rw [exec_mrsIdAa64isar1El1, accessIdReg_of_mayRead h, finishAccess]

/-- A read completes only where it may, and then as a completed read of V. -/
theorem exec_mrs_next_inv {t : Nat} {s s' : State} (h : exec (.mrsIdAa64isar1El1 t) s = .next s') :
    MayRead s ∧ s' = completeRead t s.cfg.V s := by
  obtain ⟨_, ⟨⟩, hmay, hs'⟩ := exec_next_inv h
  exact ⟨hmay, hs'⟩

/-- A read that may succeed returns V and leaves it in Xt: what R86, R87 and R88 have in common. -/
theorem mrs_returns_of_mayRead {s : State} (h : MayRead s) (t : Nat) :
    accessIdReg s = .ret s.cfg.V ∧
    ∃ s', exec (.mrsIdAa64isar1El1 t) s = .next s' ∧ (t < 31 → readX s' t = s.cfg.V) :=
  ⟨accessIdReg_of_mayRead h, _, exec_mrs_of_mayRead h t, (readDone_completeRead t s).dest⟩

/-- The faults of an access are its trap and its UNDEFINED (R90). -/
theorem finishAccess_fault {t : Nat} {s : State} {o : AccessOutcome} {f : Fault} :
    finishAccess t s o = .fault f ↔
      (∃ target code, o = .trap target code ∧ f = .systemAccessTrap target code) ∨
      (o = .undefinedAccess ∧ f = .undefinedInstr) := by
  cases o <;> simp [finishAccess, takeException, eq_comm]

/-- R100's lines for the MRS, read both ways. -/
theorem exec_mrs_fault_iff {t : Nat} {s : State} {f : Fault} :
    exec (.mrsIdAa64isar1El1 t) s = .fault f ↔
      (f = .systemAccessTrap .el2 0x18 ∧
        ((s.pstate.el = .el0 ∧ s.cfg.haveIDST = true ∧ s.el2Enabled = true ∧ s.hcr.tge = true) ∨
         (s.pstate.el = .el1 ∧ s.el2Enabled = true ∧ s.hcr.tid3 = true))) ∨
      (f = .systemAccessTrap .el1 0x18 ∧ s.pstate.el = .el0 ∧ s.cfg.haveIDST = true ∧
        ¬ (s.el2Enabled = true ∧ s.hcr.tge = true)) ∨
      (f = .undefinedInstr ∧ s.pstate.el = .el0 ∧ s.cfg.haveIDST = false) := by
  rw [exec_mrsIdAa64isar1El1, finishAccess_fault]
  constructor
  · rintro (⟨target, code, ho, rfl⟩ | ⟨ho, rfl⟩)
    · obtain ⟨rfl, ⟨hel, hidst, rfl⟩ | ⟨hel, hen, htid3, rfl⟩⟩ := access_trap ho
      · by_cases htge : s.el2Enabled = true ∧ s.hcr.tge = true
        · exact .inl ⟨by simp [htge], .inl ⟨hel, hidst, htge⟩⟩
        · exact .inr (.inl ⟨by simp [htge], hel, hidst, htge⟩)
      · exact .inl ⟨rfl, .inr ⟨hel, hen, htid3⟩⟩
    · exact .inr (.inr ⟨rfl, access_undefined ho⟩)
  · rintro (⟨rfl, ⟨hel, hidst, htge⟩ | ⟨hel, hen, htid3⟩⟩ | ⟨rfl, hel, hidst, htge⟩ | ⟨rfl, hel, hidst⟩)
    · exact .inl ⟨_, _, by rw [accessIdReg_el0_idst hel hidst, if_pos htge], rfl⟩
    · exact .inl ⟨_, _, accessIdReg_el1_tid3 hel hen htid3, rfl⟩
    · exact .inl ⟨_, _, by rw [accessIdReg_el0_idst hel hidst, if_neg htge], rfl⟩
    · exact .inr ⟨accessIdReg_el0_noIdst hel hidst, rfl⟩

/-! The statements about the access rule and the MRS. -/

/-- Settles O1. -/
theorem mrsAtEl1Returns : Obligations.MrsAtEl1Returns :=
  fun _ t _ hel hctl => mrs_returns_of_mayRead (.inl ⟨hel, hctl⟩) t

/-- Settles O2. -/
theorem mrsAtEl2Returns : Obligations.MrsAtEl2Returns :=
  fun _ t _ hel => mrs_returns_of_mayRead (.inr (.inl hel)) t

/-- Settles O3. -/
theorem mrsAtEl3Returns : Obligations.MrsAtEl3Returns :=
  fun _ t _ hel => mrs_returns_of_mayRead (.inr (.inr hel)) t

/-- Settles O4. -/
theorem mrsAtEl0UnderTgeTrapsToEl2 : Obligations.MrsAtEl0UnderTgeTrapsToEl2 :=
  fun _ _ hel hidst hen htge => exec_mrs_fault_iff.mpr (.inl ⟨rfl, .inl ⟨hel, hidst, hen, htge⟩⟩)

/-- Settles O5: either control clear keeps the trap from EL2. -/
theorem mrsAtEl0TrapsToEl1 : Obligations.MrsAtEl0TrapsToEl1 := by
  intro s t hel hidst hctl
  have hnot : ¬ (s.el2Enabled = true ∧ s.hcr.tge = true) := by
    rintro ⟨hen, htge⟩
    simp [hen, htge] at hctl
  exact exec_mrs_fault_iff.mpr (.inr (.inl ⟨rfl, hel, hidst, hnot⟩))

/-- Settles O6. -/
theorem mrsAtEl0WithoutIdstIsUndefined : Obligations.MrsAtEl0WithoutIdstIsUndefined := by
  refine fun s t hel =>
    ⟨fun hidst => exec_mrs_fault_iff.mpr (.inr (.inr ⟨rfl, hel, hidst⟩)), fun s' h => ?_⟩
  obtain ⟨hmay, -⟩ := exec_mrs_next_inv h
  exact not_mayRead_of_el0 hel hmay

/-- Settles O7. -/
theorem mrsAtEl1UnderTid3TrapsToEl2 : Obligations.MrsAtEl1UnderTid3TrapsToEl2 :=
  fun _ _ hel hen htid3 => exec_mrs_fault_iff.mpr (.inl ⟨rfl, .inr ⟨hel, hen, htid3⟩⟩)

/-- Settles O8. -/
theorem mrsCompletesExactlyWhereItMayWithItsFrame :
    Obligations.MrsCompletesExactlyWhereItMayWithItsFrame := by
  refine fun s t _ => ⟨fun hmay => ⟨_, exec_mrs_of_mayRead hmay t⟩, fun s' h => ?_⟩
  obtain ⟨hmay, rfl⟩ := exec_mrs_next_inv h
  exact ⟨hmay, readDone_completeRead t s⟩

/-- Settles O14. The leaves of R81's tests are the nine rows of R92: each case splits on the inputs its row
consults and on no other. -/
theorem accessRuleIsTheDecisionTable : Obligations.AccessRuleIsTheDecisionTable := by
  rintro v ⟨el, idst, en, tge, tid3⟩
  cases el with
  | el0 =>
    cases idst with
    | false => rfl
    | true =>
      cases en with
      | false => rfl
      | true => cases tge <;> rfl
  | el1 =>
    cases en with
    | false => rfl
    | true => cases tid3 <;> rfl
  | el2 => rfl
  | el3 => rfl

/-! Any instruction, and the step. -/

/-- Settles O11: the lines of the MRS and the one line of the MSR. -/
theorem instructionFaultsExactlyAsTabled : Obligations.InstructionFaultsExactlyAsTabled := by
  intro i s f
  cases i with
  | mrsIdAa64isar1El1 t =>
    constructor
    · exact fun h => .inl ⟨t, rfl, exec_mrs_fault_iff.mp h⟩
    · rintro (⟨_, ⟨⟩, h⟩ | ⟨_, ⟨⟩, -⟩)
      exact exec_mrs_fault_iff.mpr h
  | msrIdAa64isar1El1 t =>
    rw [exec_msrIdAa64isar1El1]
    constructor
    · rintro ⟨⟩
      exact .inr ⟨t, rfl, rfl⟩
    · rintro (⟨_, ⟨⟩, -⟩ | ⟨_, -, rfl⟩)
      rfl

/-- Where no read may succeed, every instruction stops with a fault. -/
theorem exec_faults_of_not_mayRead {s : State} (h : ¬ MayRead s) (i : Instr) :
    ∃ f, exec i s = .fault f := by
  cases hexec : exec i s with
  | next s' =>
    obtain ⟨_, -, hmay, -⟩ := exec_next_inv hexec
    exact absurd hmay h
  | fault f => exact ⟨f, rfl⟩
  | refused r =>
    cases i with
    | mrsIdAa64isar1El1 t => exact absurd hexec finishAccess_not_refused
    | msrIdAa64isar1El1 t => cases hexec

/-- The table of faults does not mention V, so an instruction that may not read stops alike on every V. -/
theorem exec_withV_of_not_mayRead {s : State} (h : ¬ MayRead s) (v : Word) (i : Instr) :
    exec i (s.withV v) = exec i s := by
  obtain ⟨f, hf⟩ := exec_faults_of_not_mayRead h i
  have htable := (instructionFaultsExactlyAsTabled i s f).mp hf
  rw [hf]
  exact (instructionFaultsExactlyAsTabled i (s.withV v) f).mpr htable

/-- The fetch reads pc and memory alone. -/
@[simp] theorem fetch_withV (s : State) (v : Word) : fetch (s.withV v) = fetch s := rfl

/-- Past the configuration check a step is decided by what it fetches and by what instructions do. -/
theorem step_congr {s s' : State} (hwf : configWf s.cfg = true) (hwf' : configWf s'.cfg = true)
    (hfetch : fetch s' = fetch s) (hexec : ∀ i, exec i s' = exec i s) : step s' = step s := by
  simp only [step, configWf_iff.mp hwf, configWf_iff.mp hwf', hfetch, hexec]

/-- Settles O16. -/
theorem noStepCompletesAtEl0 : Obligations.NoStepCompletesAtEl0 := by
  intro s s' hel hstep
  obtain ⟨-, hmay, -⟩ := step_next_inv hstep
  exact not_mayRead_of_el0 hel hmay

/-- Settles O17: the fetch does not read V, and no instruction that may not read depends on it. -/
theorem deniedReadRevealsNothingOfV : Obligations.DeniedReadRevealsNothingOfV :=
  fun s v hwf hwf' hdenied =>
    step_congr hwf hwf' (fetch_withV s v) (exec_withV_of_not_mayRead hdenied v)

end Sys2Proof.Machine
end

section
/-! What HCR_EL2.TID3 and HCR_EL2.TGE do to a read, and what no control does (R108): the access rule level by
level, then the inputs that it does not consult. -/

namespace Sys2Proof.Machine

section
variable (v : Word) (idst en tge tid3 : Bool)

/-! The access rule at EL0 and EL1. -/

theorem access_el0_idst :
    access v .el0 true en tge tid3 = .trap (if en && tge then .el2 else .el1) 0x18 := by
  cases h : en && tge <;> simp [access, sysAccessCode, h]

theorem access_el0_noIdst : access v .el0 false en tge tid3 = .undefinedAccess := rfl

theorem access_el1 :
    access v .el1 idst en tge tid3 = if en && tid3 then .trap .el2 0x18 else .ret v := rfl

/-! The inputs that a level does not consult. -/

/-- TID3 is consulted at EL1 alone. -/
theorem access_tid3_irrelevant {el : EL} (h : el ≠ .el1) :
    access v el idst en tge true = access v el idst en tge false := by
  cases el with
  | el1 => exact absurd rfl h
  | el0 | el2 | el3 => rfl

/-- TGE is consulted at EL0 alone. -/
theorem access_tge_irrelevant {el : EL} (h : el ≠ .el0) :
    access v el idst en true tid3 = access v el idst en false tid3 := by
  cases el with
  | el0 => exact absurd rfl h
  | el1 | el2 | el3 => rfl

/-- With EL2 not enabled neither bit of HCR_EL2 is consulted. -/
theorem access_el2Disabled (el : EL) :
    access v el idst false tge tid3 = access v el idst false false false := by
  cases el <;> rfl

end

/-! What no control does. -/

/-- Only EL1 and EL2 are ever the target of the trap. -/
theorem access_ne_trap_el3 {v : Word} {el : EL} {idst en tge tid3 : Bool} {code : Nat} :
    access v el idst en tge tid3 ≠ .trap .el3 code := by
  intro h
  obtain ⟨-, ⟨-, -, htarget⟩ | ⟨-, -, -, htarget⟩⟩ := access_trap h
  · split at htarget <;> cases htarget
  · cases htarget

/-- Only reads at EL0 and EL1 are ever trapped. -/
theorem access_ne_trap_of_el2_or_el3 {v : Word} {el target : EL} {idst en tge tid3 : Bool} {code : Nat}
    (hel : el = .el2 ∨ el = .el3) : access v el idst en tge tid3 ≠ .trap target code := by
  intro h
  obtain ⟨-, ⟨rfl, -⟩ | ⟨rfl, -⟩⟩ := access_trap h <;> simp at hel

theorem access_el0_ne_ret {v w : Word} {idst en tge tid3 : Bool} :
    access v .el0 idst en tge tid3 ≠ .ret w := by
  intro h
  obtain ⟨-, ⟨hel, -⟩ | hel | hel⟩ := access_ret h <;> cases hel

/-- Settles O13, sentence by sentence of R108. -/
theorem hcrBitsControlOnlyTheseReads : Obligations.HcrBitsControlOnlyTheseReads := fun v idst en tge tid3 =>
  ⟨access_el1 v idst true tge true,
   access_el1 v idst true tge false,
   fun _ hel => access_tid3_irrelevant v idst en tge hel,
   access_el0_idst v true true tid3,
   access_el0_idst v true false tid3,
   fun _ hel => access_tge_irrelevant v idst en tid3 hel,
   access_el2Disabled v idst tge tid3,
   access_el0_noIdst v en tge tid3,
   fun _ _ => access_ne_trap_el3,
   fun _ _ _ => access_ne_trap_of_el2_or_el3,
   fun _ => access_el0_ne_ret⟩

end Sys2Proof.Machine
end

section
/-! Decoding and encoding as inverses (R72, R75, R76, R79): first on words, then on lists of bytes. -/

namespace Sys2Proof

/-! Words. -/

/-- The decoder undoes R72's layout: the fields of a word put together are the parts it was put together
from. -/
theorem decodeWord_sysRegWord (l : BitVec 1) (rt : BitVec 5) :
    decodeWord (sysRegWord l idAa64isar1Selector rt) =
      if l = 1#1 then .ok (.mrsIdAa64isar1El1 rt.toNat) else .ok (.msrIdAa64isar1El1 rt.toNat) := by
  obtain ⟨hfixed, hl, hsel, hrt⟩ := eq_sysRegWord_iff.mp (Eq.refl (sysRegWord l idAa64isar1Selector rt))
  rw [decodeWord, if_pos ⟨hfixed, hsel⟩, hl, hrt]

/-- The word of a well-formed instruction decodes to it: the register number fits Rt. -/
theorem decodeWord_encode {i : Instr} (h : i.wellFormed = true) : decodeWord (encode i) = .ok i := by
  cases i with
  | mrsIdAa64isar1El1 t =>
    have ht : t < 32 := by simpa [Instr.wellFormed] using h
    rw [encode, decodeWord_sysRegWord, if_pos rfl, BitVec.toNat_ofNat, Nat.mod_eq_of_lt ht]
  | msrIdAa64isar1El1 t =>
    have ht : t < 32 := by simpa [Instr.wellFormed] using h
    rw [encode, decodeWord_sysRegWord, if_neg (by decide), BitVec.toNat_ofNat, Nat.mod_eq_of_lt ht]

/-- What decodes is the word of a well-formed instruction: the decoder has tested every field but Rt, and Rt
gives the register number. -/
theorem decodeWord_ok_inv {w : InstrWord} {i : Instr} (h : decodeWord w = .ok i) :
    i.wellFormed = true ∧ w = encode i := by
  unfold decodeWord at h
  split at h
  next hmap =>
    obtain ⟨hfixed, hsel⟩ := hmap
    have hrt : wordRt w = BitVec.ofNat 5 (wordRt w).toNat := by simp
    split at h
    next hl =>
      cases h
      exact ⟨decide_eq_true (wordRt w).isLt, eq_sysRegWord_iff.mpr ⟨hfixed, hl, hsel, hrt⟩⟩
    next hl =>
      cases h
      have hl0 : wordL w = 0#1 := (BitVec.eq_zero_or_eq_one (wordL w)).resolve_right hl
      exact ⟨decide_eq_true (wordRt w).isLt, eq_sysRegWord_iff.mpr ⟨hfixed, hl0, hsel, hrt⟩⟩
  next => cases h

/-! Bytes. -/

/-- Decoding the bytes of a word is decoding the word, whatever bytes follow. -/
theorem decode_bytesOfWord_append (w : InstrWord) (rest : List Byte) :
    decode (bytesOfWord w ++ rest) = (decodeWord w).map (·, rest) := by
  simp only [bytesOfWord, List.cons_append, List.nil_append, decode, wordOfBytes_wordByte]
  cases decodeWord w <;> rfl

/-- A list that decodes is four bytes whose word decodes, and the rest. -/
theorem decode_ok_inv {bytes rest : List Byte} {i : Instr} (h : decode bytes = .ok (i, rest)) :
    ∃ w, bytes = bytesOfWord w ++ rest ∧ decodeWord w = .ok i := by
  unfold decode at h
  split at h
  next b0 b1 b2 b3 rest' =>
    split at h
    next hw =>
      cases h
      exact ⟨_, by rw [bytesOfWord_wordOfBytes]; rfl, hw⟩
    next => cases h
  next => cases h

/-- Settles O29: on the first four bytes it is the same statement about their word. -/
theorem decodeAndEncodeAgreeOnBytes : Obligations.DecodeAndEncodeAgreeOnBytes := by
  intro bytes rest i
  constructor
  · intro h
    obtain ⟨w, rfl, hw⟩ := decode_ok_inv h
    obtain ⟨hwf, rfl⟩ := decodeWord_ok_inv hw
    exact ⟨hwf, rfl⟩
  · rintro ⟨hwf, rfl⟩
    rw [encodeBytes, decode_bytesOfWord_append, decodeWord_encode hwf, Except.map]

/-- Settles O28: each row of R79 is the encoding of its instruction. -/
theorem exampleEncodingsDecode : Obligations.ExampleEncodingsDecode := by
  simp only [Obligations.ExampleEncodingsDecode, decodeAndEncodeAgreeOnBytes _ _ _]
  decide

end Sys2Proof

namespace Sys2Proof.Machine

/-- Settles O35: the fields put together as a number; only Rt depends on t, and it holds all of t. -/
theorem offeredSyndromeIsItsNumber : Obligations.OfferedSyndromeIsItsNumber := by
  intro t ht
  simp only [offeredSyndrome, toNat_append_eq_add, BitVec.toNat_ofNat, sysAccessCode, idAa64isar1Selector]
  omega

end Sys2Proof.Machine
end

section
/-! The step (R30, R53, R76): what it does with a fetch that answers, one that stops, and a configuration it
refuses; and what a completed step says of its pc. -/

namespace Sys2Proof.Machine

/-! The fetch at an aligned pc. -/

theorem pcAligned_iff {pc : Word} : pcAligned pc = true ↔ pc.toNat % 4 = 0 := by simp [pcAligned]

/-- Four bytes listed from an aligned pc on are what the fetch answers. -/
theorem fetch_ok_of_aligned {s : State} {b0 b1 b2 b3 : Byte} (hpc : s.pc.toNat % 4 = 0)
    (h0 : memRead s.mem s.pc.toNat = some b0) (h1 : memRead s.mem (s.pc.toNat + 1) = some b1)
    (h2 : memRead s.mem (s.pc.toNat + 2) = some b2) (h3 : memRead s.mem (s.pc.toNat + 3) = some b3) :
    fetch s = .ok [b0, b1, b2, b3] := by
  have ha : pcAligned s.pc = true := pcAligned_iff.mpr hpc
  apply fetch_ok ha <;> rwa [fetchAddr_aligned ha (by decide)]

/-- R53. -/
theorem fetch_misaligned {s : State} (hpc : s.pc.toNat % 4 ≠ 0) :
    fetch s = .error (.pcAlignment s.pc) :=
  if_neg (mt pcAligned_iff.mp hpc)

/-- The four places of a stored word are distinct at an aligned pc, so each byte of it is read back. -/
theorem memRead_storeWordAt {pc : Word} (hpc : pc.toNat % 4 = 0) (w : InstrWord) (m : List Host.Cell) {i : Nat}
    (hi : i < 4) : memRead (storeWordAt pc w m) (pc.toNat + i) = some (wordByte w i) := by
  have haddr : ∀ j < 4, fetchAddr pc j = pc.toNat + j := fun _ => fetchAddr_aligned (pcAligned_iff.mpr hpc)
  rw [storeWordAt, haddr 0 (by decide), haddr 1 (by decide), haddr 2 (by decide), haddr 3 (by decide)]
  interval_cases i <;> simp [memRead_memWrite_ne]

/-- The fetch finds the word stored at an aligned pc. -/
theorem fetch_withFetchWord {s : State} (hpc : s.pc.toNat % 4 = 0) (w : InstrWord) :
    fetch (s.withFetchWord 32 w.toNat) = .ok (bytesOfWord w) := by
  have hword : tableWord 32 w.toNat = w := by
    rw [tableWord, Nat.mod_eq_of_lt w.isLt, BitVec.ofNat_toNat, BitVec.setWidth_eq]
  have hread : ∀ i < 4, memRead (s.withFetchWord 32 w.toNat).mem (s.pc.toNat + i) = some (wordByte w i) := by
    intro i hi
    rw [withFetchWord_mem, hword, memRead_storeWordAt hpc w s.mem hi]
  exact fetch_ok_of_aligned hpc (hread 0 (by decide)) (hread 1 (by decide)) (hread 2 (by decide))
    (hread 3 (by decide))

/-! The step, by what the fetch answers. -/

theorem step_of_fetch_error {s : State} {f : Fault} (hwf : configWf s.cfg = true)
    (hfetch : fetch s = .error f) : step s = .fault f := by
  simp only [step, configWf_iff.mp hwf, hfetch]

theorem step_of_decode_ok {s : State} {bytes rest : List Byte} {i : Instr} (hwf : configWf s.cfg = true)
    (hfetch : fetch s = .ok bytes) (hdecode : decode bytes = .ok (i, rest)) : step s = exec i s := by
  simp only [step, configWf_iff.mp hwf, hfetch, hdecode]

theorem step_of_decode_error {s : State} {bytes : List Byte} {e : DecodeError} (hwf : configWf s.cfg = true)
    (hfetch : fetch s = .ok bytes) (hdecode : decode bytes = .error e) :
    step s = .refused (.notThisHardware e) := by
  simp only [step, configWf_iff.mp hwf, hfetch, hdecode]

/-- A step that answers a next state has fetched, so its pc was aligned. -/
theorem step_next_aligned {s s' : State} (h : step s = .next s') : s.pc.toNat % 4 = 0 := by
  by_contra hpc
  obtain ⟨hwf, -⟩ := step_next_inv h
  rw [step_of_fetch_error hwf (fetch_misaligned hpc)] at h
  cases h

/-! The instructions. -/

/-- Settles O12: the MRS ends as its access does, and the MSR is UNDEFINED. -/
theorem noInstructionIsRefused : Obligations.NoInstructionIsRefused := by
  intro i s r
  cases i with
  | mrsIdAa64isar1El1 t => exact finishAccess_not_refused
  | msrIdAa64isar1El1 t => simp

/-- Past x[30] a write is no write at all: the one register number there, 31, is XZR (R73). -/
theorem writeX_of_le {t : Nat} (h : 31 ≤ t) (v : Word) (s : State) : writeX t v s = s :=
  dif_neg (Nat.not_lt.mpr h)

/-- Settles O9. -/
theorem mrsToXzrWritesNoRegister : Obligations.MrsToXzrWritesNoRegister := fun s hmay =>
  ⟨_, exec_mrs_of_mayRead hmay 31, by rw [completeRead_x, writeX_of_le le_rfl], readX_xzr _⟩

/-! The statements about the step. -/

/-- Settles O30. -/
theorem stepRunsTheDecodedInstruction : Obligations.StepRunsTheDecodedInstruction :=
  fun _ _ _ _ _ _ hwf hpc h0 h1 h2 h3 hdecode =>
    step_of_decode_ok hwf (fetch_ok_of_aligned hpc h0 h1 h2 h3) hdecode

/-- Settles O31: the fetch answers the stored word's bytes, and these are the encoding of the instruction. -/
theorem storedInstructionIsRunNext : Obligations.StoredInstructionIsRunNext := by
  intro s i hwf hpc hi
  have hdecode : decode (bytesOfWord (encode i)) = .ok (i, []) :=
    (decodeAndEncodeAgreeOnBytes _ _ _).mpr ⟨hi, (List.append_nil _).symm⟩
  exact step_of_decode_ok hwf (fetch_withFetchWord hpc (encode i)) hdecode

/-- Settles O32. -/
theorem stepRefusesWordsOutsideTheMap : Obligations.StepRefusesWordsOutsideTheMap := by
  intro s w hwf hpc hmem hmrs hmsr
  have hfetch : fetch s = .ok (bytesOfWord w) :=
    fetch_ok_of_aligned hpc (hmem 0 (by decide)) (hmem 1 (by decide)) (hmem 2 (by decide))
      (hmem 3 (by decide))
  have hdecode : decode (bytesOfWord w) = .error (.notThisHardware w) := by
    rw [← List.append_nil (bytesOfWord w), decode_bytesOfWord_append, decodeWord_outsideRows hmrs hmsr,
      Except.map]
  exact step_of_decode_error hwf hfetch hdecode

/-- Settles O33. -/
theorem misalignedPcFaults : Obligations.MisalignedPcFaults :=
  fun _ hwf hpc => step_of_fetch_error hwf (fetch_misaligned hpc)

/-- pc + 4 inside the address space, as numbers. -/
theorem toNat_nextPc {pc : Word} (h : pc.toNat + 4 < 2 ^ 64) : (nextPc pc).toNat = pc.toNat + 4 := by
  rw [nextPc_inside h, BitVec.toNat_add]
  exact Nat.mod_eq_of_lt h

/-- Settles O34: a completed step fetched at an aligned pc and completed a read. -/
theorem stepKeepsPcAligned : Obligations.StepKeepsPcAligned := by
  intro s s' h hinside
  have hpc : s.pc.toNat % 4 = 0 := step_next_aligned h
  obtain ⟨-, -, t, rfl⟩ := step_next_inv h
  rw [completeRead_pc, toNat_nextPc hinside]
  exact ⟨hpc, by omega, rfl⟩

end Sys2Proof.Machine
end

section
/-! The invariant and histories (R42, R43, R120, R125, D12): each event keeps the invariant, none changes the
configuration, and a run of steps adds nothing but reads of V. -/

namespace Sys2Proof.Machine

/-! The invariant. -/

/-- The invariant speaks of the configuration, the level, EL2Enabled() and memory only. -/
theorem inv_congr {s s' : State} (hcfg : s'.cfg = s.cfg) (hel : s'.pstate.el = s.pstate.el)
    (hen : s'.el2Enabled = s.el2Enabled) (hmem : s'.mem = s.mem) (h : s.Inv) : s'.Inv := by
  rw [State.Inv, hcfg, hel, hen, hmem]
  exact h

theorem inv_writeX {s : State} (h : s.Inv) (t : Nat) (v : Word) : (writeX t v s).Inv :=
  inv_congr (writeX_cfg ..) (by rw [writeX_pstate]) (writeX_el2Enabled ..) (writeX_mem ..) h

theorem inv_completeRead {s : State} (h : s.Inv) (t : Nat) (v : Word) : (completeRead t v s).Inv :=
  inv_congr (completeRead_cfg ..) rfl (completeRead_el2Enabled ..) (completeRead_mem ..) h

/-- Settles O36. -/
theorem resetMeetsTheInvariant : Obligations.ResetMeetsTheInvariant :=
  ⟨by decide, by decide, memWf_reset⟩

/-- Settles O37: a step that answers a next state completed a read. -/
theorem stepKeepsTheInvariant : Obligations.StepKeepsTheInvariant := by
  intro s s' hinv h
  obtain ⟨-, -, t, rfl⟩ := step_next_inv h
  exact inv_completeRead hinv t s.cfg.V

/-- Every allowed event keeps the invariant. Only a change of inputs, a store and a reset touch what it speaks
of; the first and the last are allowed under D12 alone, and a store keeps the canonical form. -/
theorem applyEvent_inv {e : Event} {s s' : State} (hinv : s.Inv) (hok : eventOk s.cfg e = true)
    (h : applyEvent s e = .next s') : s'.Inv := by
  have ⟨hwf, hinputs, hmem⟩ := hinv
  cases e with
  | stepPE => exact stepKeepsTheInvariant s s' hinv h
  | present i => cases h; exact ⟨hwf, hok, hmem⟩
  | setX n v => cases h; exact inv_writeX hinv n v
  | setPc v => cases h; exact hinv
  | setFlags n d => cases h; exact hinv
  | storeByte a b => cases h; exact ⟨hwf, hinputs, memWf_memWrite b hmem a.isLt⟩
  | setPeerBit b v => obtain ⟨_, rfl⟩ := writePeerBit_frame (finishPeerAccess_next.mp h); exact hinv
  | setApKey k v => obtain ⟨_, rfl⟩ := writeApKey_frame (finishPeerAccess_next.mp h); exact hinv
  | setAccdata v => obtain ⟨_, rfl⟩ := writeAccdata_frame (finishPeerAccess_next.mp h); exact hinv
  | getApKey n k =>
    obtain ⟨v, -, rfl⟩ := map_writeX_ok (finishPeerAccess_next.mp h)
    exact inv_writeX hinv n v
  | getAccdata n =>
    obtain ⟨v, -, rfl⟩ := map_writeX_ok (finishPeerAccess_next.mp h)
    exact inv_writeX hinv n v
  | resetPE d =>
    cases h
    obtain ⟨hdraw, hdrawMem⟩ := Bool.and_eq_true_iff.mp hok
    exact ⟨hwf, hdraw, hdrawMem⟩

/-- Settles O38. Events are allowed on the first state's configuration, so the induction carries beside the
invariant that the configuration is still that one. -/
theorem historiesKeepTheInvariant : Obligations.HistoriesKeepTheInvariant := by
  intro es s s' hinv hok h
  have hkeeps : ∀ e s1 s2, eventOk s.cfg e = true → s1.Inv ∧ s1.cfg = s.cfg →
      applyEvent s1 e = .next s2 → s2.Inv ∧ s2.cfg = s.cfg := by
    rintro e s1 s2 he ⟨hinv1, hcfg1⟩ hev
    exact ⟨applyEvent_inv hinv1 (hcfg1 ▸ he) hev, (applyEvent_cfg hev).trans hcfg1⟩
  obtain ⟨hinv', -⟩ := runEvents_keeps hkeeps es s s' hok ⟨hinv, rfl⟩ h
  exact hinv'

/-! The register's value. -/

/-- No history changes the configuration, V among it. -/
theorem runEvents_cfg {es : List Event} {s s' : State} (h : runEvents es s = .next s') : s'.cfg = s.cfg :=
  runEvents_keeps (P := fun s1 => s1.cfg = s.cfg) (ok := fun _ => True)
    (fun _ _ _ _ hcfg hev => (applyEvent_cfg hev).trans hcfg) es s s' (fun _ _ => trivial) rfl h

/-- Settles O39. -/
theorem registerValueIsConstantAcrossHistories : Obligations.RegisterValueIsConstantAcrossHistories := by
  intro es s s' h
  have hconst : readIdReg s' = readIdReg s := congrArg PEConfig.V (runEvents_cfg h)
  refine ⟨hconst, fun t s'' ht hread => ?_⟩
  obtain ⟨-, rfl⟩ := exec_mrs_next_inv hread
  rw [← hconst, readIdReg]
  exact (readDone_completeRead t s').dest ht

/-- Settles O41. -/
theorem resetKeepsVAndDrawsTheRest : Obligations.ResetKeepsVAndDrawsTheRest := fun d s =>
  ⟨congrArg PEConfig.V (resetTo_cfg d s), resetTo_cfg d s, resetTo_x d s, resetTo_pc d s,
   congrArg PState.el (resetTo_pstate d s), congrArg PState.nzcv (resetTo_pstate d s),
   congrArg PState.daif (resetTo_pstate d s), resetTo_el2Enabled d s, resetTo_hcr d s, resetTo_peers d s,
   resetTo_mem d s⟩

/-! Runs of steps. -/

/-- After a completed read every register is as it was or holds V (R89). -/
theorem readX_completeRead_or (t n : Nat) (s : State) :
    readX (completeRead t s.cfg.V s) n = readX s n ∨ readX (completeRead t s.cfg.V s) n = s.cfg.V := by
  rcases Nat.lt_or_ge t 31 with ht | ht
  · by_cases hn : n = t
    · subst hn
      exact .inr ((readDone_completeRead n s).dest ht)
    · exact .inl ((readDone_completeRead t s).otherX n (.inl hn))
  · exact .inl (by rw [readX_completeRead, writeX_of_le ht])

/-- Settles O40, by induction on the number of steps: the first is a completed read, and the run after it
starts 4 further on, on the same configuration. -/
theorem completedRunWritesOnlyV : Obligations.CompletedRunWritesOnlyV := by
  intro k
  induction k with
  | zero =>
    intro s s' h _
    cases h
    exact ⟨rfl, fun _ => .inl rfl, rfl, rfl, rfl, rfl, rfl, fun _ => rfl⟩
  | succ k ih =>
    intro s s' h hinside
    obtain ⟨s1, hstep, hrun⟩ := core_run_succ_inv h
    obtain ⟨-, -, t, rfl⟩ := step_next_inv hstep
    have hpc1 : (completeRead t s.cfg.V s).pc.toNat = s.pc.toNat + 4 := toNat_nextPc (by omega)
    obtain ⟨hpc, hx, hcfg, hpstate, hen, hhcr, hpeers, hmem⟩ := ih _ s' hrun (by omega)
    simp only [completeRead_cfg, completeRead_pstate, completeRead_el2Enabled, completeRead_hcr,
      completeRead_peers, completeRead_mem] at hx hcfg hpstate hen hhcr hpeers hmem
    refine ⟨by omega, fun n => ?_, hcfg, hpstate, hen, hhcr, hpeers, hmem⟩
    rcases hx n with hold | hV
    · rw [hold]
      exact readX_completeRead_or t n s
    · exact .inr hV

end Sys2Proof.Machine
end

section
/-! Well-formedness of a configuration as the sentences spell it (R30, R31): R31's collected table beside the
sentences it was collected from, each clause of R30 as a statement about fields, and what a step refuses. -/

namespace Sys2Proof.Machine

/-! The permitted values (R31). -/

/-- What a sentence permits. -/
def PermitSentence.permits (p : PermitSentence) (simd : Bool) : List Nat :=
  if simd then p.withSIMD else p.withoutSIMD

/-- The first match of a list decides, and a default where there is none. -/
theorem find?_elim_eq_foldr {α β : Type} (P : α → Bool) (g : α → β) (d : β) (l : List α) :
    (l.find? P).elim d g = l.foldr (fun a acc => if P a then g a else acc) d := by
  induction l with
  | nil => rfl
  | cons a l ih =>
    rw [List.find?_cons, List.foldr_cons, ← ih]
    cases P a <;> rfl

/-- R31's reading: going through a field's sentences, oldest first, each that covers the version replaces what
was permitted before, and before all of them stand the defined values. -/
theorem permittedBySentences_eq_foldl (a : ArchVersion) (simd : Bool) (f : IdField) :
    permittedBySentences a simd f =
      (permitSentences f).foldl (fun acc p => if p.since ≤ a.minor then p.permits simd else acc)
        (definedValues f) := by
  have h := find?_elim_eq_foldr (fun p : PermitSentence => decide (p.since ≤ a.minor)) (fun p => p.permits simd)
    (definedValues f) (permitSentences f).reverse
  simp only [List.foldr_reverse, decide_eq_true_eq] at h
  rw [← h, permittedBySentences]
  cases (permitSentences f).reverse.find? fun p => decide (p.since ≤ a.minor) <;> rfl

/-- Settles O21. The sentences of a field, replacing one another, are its line of the table; LRCPC's line has a
cell for one version where the sentences say "from". -/
theorem permittedTableAgreesWithSentences : Obligations.PermittedTableAgreesWithSentences := by
  intro a simd f hAPI hAPA
  rw [permittedBySentences_eq_foldl]
  cases f with
  | API => exact absurd rfl hAPI
  | APA => exact absurd rfl hAPA
  | LRCPC =>
    simp only [permittedValues, permitSentences, List.foldl_cons, List.foldl_nil, PermitSentence.permits,
      ite_self]
    cases a <;> rfl
  | _ =>
    simp [permittedValues, permitSentences, PermitSentence.permits, definedValues]

/-! The defined values (R13 to R29). -/

/-- The largest value a field's table defines. -/
def largestDefined : IdField → Nat
  | .LS64 => 3
  | .LRCPC => 2
  | .API => 5
  | .APA => 5
  | .DPB => 2
  | _ => 1

/-- The defined values of a field are the numbers up to its largest. -/
theorem mem_definedValues_iff {f : IdField} {n : Nat} : n ∈ definedValues f ↔ n ≤ largestDefined f := by
  have hrange : definedValues f = List.range (largestDefined f + 1) := by cases f <;> rfl
  rw [hrange, List.mem_range, Nat.lt_succ_iff]

/-- The one-bit fields of `ConfigMeetsSpec.oneBit` define 0 and 1. -/
theorem oneBit_largestDefined : ∀ f ∈ [IdField.XS, .I8MM, .DGH, .BF16, .SPECRES, .SB, .FRINTTS, .GPI, .GPA,
    .FCMA, .JSCVT], largestDefined f = 1 := by
  decide

/-! The clauses of R30. -/

section Clauses

variable {c : PEConfig}

theorem IdField.mem_all (f : IdField) : f ∈ IdField.all := by cases f <;> decide

theorem holds_definedFields :
    WfClause.definedFields.holds c = true ↔ ∀ f, idFieldNat c.V f ≤ largestDefined f := by
  simp [WfClause.holds, IdField.mem_all, mem_definedValues_iff]

theorem holds_genericExclusive :
    WfClause.genericExclusive.holds c = true ↔ (idFieldNat c.V .GPA ≠ 0 → idFieldNat c.V .GPI = 0) := by
  simp only [WfClause.holds, Bool.not_eq_true', Bool.and_eq_false_iff, bne_eq_false_iff_eq]
  tauto

theorem holds_addressExclusive :
    WfClause.addressExclusive.holds c = true ↔ (idFieldNat c.V .APA ≠ 0 → idFieldNat c.V .API = 0) := by
  simp only [WfClause.holds, Bool.not_eq_true', Bool.and_eq_false_iff, bne_eq_false_iff_eq]
  tauto

theorem holds_zfr0Agrees :
    WfClause.zfr0Agrees.holds c = true ↔
      (c.haveSIMDandSVE = true → idField c.V .I8MM = c.zfr0I8MM ∧ idField c.V .BF16 = c.zfr0BF16) := by
  cases h : c.haveSIMDandSVE <;> simp [WfClause.holds, h]

theorem holds_dghEffect :
    WfClause.dghEffect.holds c = true ↔ (c.dghHasEffect = false → idFieldNat c.V .DGH = 0) := by
  cases h : c.dghHasEffect <;> simp [WfClause.holds, h]

/-- The pair rule, as bounds. -/
theorem addressAuthPair_iff {V : Word} :
    addressAuthPair V = true ↔
      (idFieldNat V .API = 0 ∧ 3 ≤ idFieldNat V .APA ∧ idFieldNat V .APA ≤ 5) ∨
      (idFieldNat V .APA = 0 ∧ 3 ≤ idFieldNat V .API ∧ idFieldNat V .API ≤ 5) := by
  simp only [addressAuthPair, Bool.or_eq_true, Bool.and_eq_true, beq_iff_eq, List.contains_iff_mem,
    List.mem_cons, List.not_mem_nil, or_false]
  omega

theorem holds_permittedAtVersion :
    WfClause.permittedAtVersion.holds c = true ↔
      (∀ f, idFieldNat c.V f ∈ permittedValues c.archVersion c.haveSIMDorFP f) ∧
      (6 ≤ c.archVersion.minor → addressAuthPair c.V = true) := by
  simp only [WfClause.holds, Bool.and_eq_true, List.all_eq_true, List.contains_iff_mem, IdField.mem_all,
    forall_const, Bool.or_eq_true, decide_eq_true_eq, ← Nat.not_le, or_iff_not_imp_left, not_not]

/-- For API and APA the table permits what is defined; their sentence is the pair rule. -/
theorem permittedValues_of_address {a : ArchVersion} {simd : Bool} {f : IdField} (h : f = .API ∨ f = .APA) :
    permittedValues a simd f = definedValues f := by
  rcases h with rfl | rfl <;> rfl

end Clauses

/-- R30's check is R30 as R14 to R29 spell it. -/
theorem configWf_iff_configMeetsSpec {c : PEConfig} : configWf c = true ↔ ConfigMeetsSpec c := by
  rw [configWf_iff_holds]
  constructor
  · intro h
    have hdef := holds_definedFields.mp (h .definedFields)
    obtain ⟨hperm, hpair⟩ := holds_permittedAtVersion.mp (h .permittedAtVersion)
    exact {
      ls64 := hdef .LS64
      lrcpc := hdef .LRCPC
      api := hdef .API
      apa := hdef .APA
      dpb := hdef .DPB
      oneBit := fun f hf => oneBit_largestDefined f hf ▸ hdef f
      gpiWhenGpa := holds_genericExclusive.mp (h .genericExclusive)
      apiWhenApa := holds_addressExclusive.mp (h .addressExclusive)
      zfr0 := holds_zfr0Agrees.mp (h .zfr0Agrees)
      dgh := holds_dghEffect.mp (h .dghEffect)
      permitted := fun f hAPI hAPA => permittedTableAgreesWithSentences _ _ f hAPI hAPA ▸ hperm f
      addressAuthFrom86 := fun h86 => addressAuthPair_iff.mp (hpair h86) }
  · intro h k
    have hdef : ∀ f, idFieldNat c.V f ≤ largestDefined f := by
      intro f
      cases f with
      | LS64 => exact h.ls64
      | LRCPC => exact h.lrcpc
      | API => exact h.api
      | APA => exact h.apa
      | DPB => exact h.dpb
      | _ => exact h.oneBit _ (by decide)
    cases k with
    | definedFields => exact holds_definedFields.mpr hdef
    | genericExclusive => exact holds_genericExclusive.mpr h.gpiWhenGpa
    | addressExclusive => exact holds_addressExclusive.mpr h.apiWhenApa
    | zfr0Agrees => exact holds_zfr0Agrees.mpr h.zfr0
    | dghEffect => exact holds_dghEffect.mpr h.dgh
    | permittedAtVersion =>
      refine holds_permittedAtVersion.mpr
        ⟨fun f => ?_, fun h86 => addressAuthPair_iff.mpr (h.addressAuthFrom86 h86)⟩
      by_cases hf : f = .API ∨ f = .APA
      · rw [permittedValues_of_address hf]
        exact mem_definedValues_iff.mpr (hdef f)
      · obtain ⟨hAPI, hAPA⟩ := not_or.mp hf
        rw [permittedTableAgreesWithSentences _ _ f hAPI hAPA]
        exact h.permitted f hAPI hAPA

/-! What a step refuses. -/

/-- The configuration check comes first, and nothing after it names a clause of R30. -/
theorem step_configNotWellFormed_iff {s : State} :
    (∃ c, step s = .refused (.configNotWellFormed c)) ↔ ¬ configWf s.cfg = true := by
  rw [configWf_iff]
  constructor
  · rintro ⟨c, h⟩ hnone
    simp only [step, hnone] at h
    split at h
    · cases h
    · split at h
      · exact noInstructionIsRefused _ _ _ h
      · cases h
  · intro h
    obtain ⟨c, hc⟩ := Option.ne_none_iff_exists'.mp h
    exact ⟨c, by simp only [step, hc]⟩

/-- Settles O20. -/
theorem stepRefusesExactlyIllFormedConfigurations :
    Obligations.StepRefusesExactlyIllFormedConfigurations := fun _ =>
  step_configNotWellFormed_iff.trans (not_congr configWf_iff_configMeetsSpec)

end Sys2Proof.Machine
end

section
/-! Pointer authentication on a well-formed V (R31, R32). -/

namespace Sys2Proof.Machine

/-- R32's row as conditions on the value. -/
theorem pacRow_defined (alg : AuthAlgorithm) {a : Nat} (h1 : 1 ≤ a) (h5 : a ≤ 5) :
    pacRow alg a =
      some ⟨alg, decide (a = 2), decide (3 ≤ a), decide (4 ≤ a), decide (a = 5)⟩ := by
  interval_cases a <;> rfl

theorem pacRow_zero (alg : AuthAlgorithm) : pacRow alg 0 = none := rfl

theorem addressAuth_of_api_zero {V : Word} (h : idFieldNat V .API = 0) :
    addressAuth V = pacRow .qarma (idFieldNat V .APA) := if_pos h

theorem addressAuth_of_apa_zero {V : Word} (h : idFieldNat V .API ≠ 0) (h0 : idFieldNat V .APA = 0) :
    addressAuth V = pacRow .implementationDefined (idFieldNat V .API) := by
  rw [addressAuth, if_neg h, if_pos h0]

/-- The non-zero one of API and APA is `a`, and it names the algorithm. -/
def AddressAuthField (V : Word) (alg : AuthAlgorithm) (a : Nat) : Prop :=
  (alg = .qarma ∧ idFieldNat V .API = 0 ∧ idFieldNat V .APA = a) ∨
  (alg = .implementationDefined ∧ idFieldNat V .APA = 0 ∧ idFieldNat V .API = a)

/-- The non-zero field alone decides on the functions. -/
theorem addressAuth_of_field {V : Word} {alg : AuthAlgorithm} {a : Nat} (h : AddressAuthField V alg a)
    (h1 : 1 ≤ a) (h5 : a ≤ 5) :
    addressAuth V = some ⟨alg, decide (a = 2), decide (3 ≤ a), decide (4 ≤ a), decide (a = 5)⟩ := by
  rcases h with ⟨rfl, hAPI, rfl⟩ | ⟨rfl, hAPA, rfl⟩
  · rw [addressAuth_of_api_zero hAPI, pacRow_defined _ h1 h5]
  · rw [addressAuth_of_apa_zero (Nat.one_le_iff_ne_zero.mp h1) hAPA, pacRow_defined _ h1 h5]

/-- On a well-formed V either neither field is set or one is, to a defined value. -/
theorem addressAuth_cases {c : PEConfig} (hwf : configWf c = true) :
    (idFieldNat c.V .API = 0 ∧ idFieldNat c.V .APA = 0) ∨
    ∃ alg a, 1 ≤ a ∧ a ≤ 5 ∧ AddressAuthField c.V alg a := by
  have hspec := configWf_iff_configMeetsSpec.mp hwf
  by_cases hAPA : idFieldNat c.V .APA = 0
  · by_cases hAPI : idFieldNat c.V .API = 0
    · exact .inl ⟨hAPI, hAPA⟩
    · exact .inr ⟨_, _, Nat.one_le_iff_ne_zero.mpr hAPI, hspec.api, .inr ⟨rfl, hAPA, rfl⟩⟩
  · exact .inr ⟨_, _, Nat.one_le_iff_ne_zero.mpr hAPA, hspec.apa,
      .inl ⟨rfl, hspec.apiWhenApa hAPA, rfl⟩⟩

/-- On a well-formed V generic authentication has no algorithm or one (R32). -/
theorem genericAuth_cases {c : PEConfig} (hwf : configWf c = true) :
    (idFieldNat c.V .GPI = 0 ∧ idFieldNat c.V .GPA = 0 ∧ genericAuth c.V = none) ∨
    (idFieldNat c.V .GPI = 0 ∧ idFieldNat c.V .GPA = 1 ∧ genericAuth c.V = some .qarma) ∨
    (idFieldNat c.V .GPI = 1 ∧ idFieldNat c.V .GPA = 0 ∧
      genericAuth c.V = some .implementationDefined) := by
  have hspec := configWf_iff_configMeetsSpec.mp hwf
  rcases Nat.le_one_iff_eq_zero_or_eq_one.mp (hspec.oneBit .GPA (by decide)) with hGPA | hGPA
  · rcases Nat.le_one_iff_eq_zero_or_eq_one.mp (hspec.oneBit .GPI (by decide)) with hGPI | hGPI
    · exact .inl ⟨hGPI, hGPA, by simp [genericAuth, hGPI, hGPA]⟩
    · exact .inr (.inr ⟨hGPI, hGPA, by simp [genericAuth, hGPI, hGPA]⟩)
  · exact .inr (.inl ⟨hspec.gpiWhenGpa (by simp [hGPA]), hGPA, by simp [genericAuth, hGPA]⟩)

/-- Settles O42. -/
theorem pointerAuthenticationFollowsItsTable : Obligations.PointerAuthenticationFollowsItsTable := by
  refine fun c hwf => ⟨?_, genericAuth_cases hwf⟩
  rcases addressAuth_cases hwf with ⟨hAPI, hAPA⟩ | ⟨alg, a, h1, h5, hfield⟩
  · exact .inl ⟨hAPI, hAPA, by rw [addressAuth_of_api_zero hAPI, hAPA, pacRow_zero]⟩
  · exact .inr ⟨a, alg, h1, h5, hfield, _, addressAuth_of_field hfield h1 h5, rfl, by simp⟩

/-- Settles O23: the pair rule of R31 leaves the values from 3 of one of the two fields. -/
theorem addressAuthenticationFromArmv86 : Obligations.AddressAuthenticationFromArmv86 := by
  intro c hwf h86
  have hfunctions : ∀ {alg a}, 3 ≤ a → a ≤ 5 → AddressAuthField c.V alg a →
      addressAuth c.V = some ⟨alg, false, true, decide (4 ≤ a), decide (a = 5)⟩ := by
    intro alg a h3 h5 hfield
    rw [addressAuth_of_field hfield (by omega) h5, decide_eq_true h3, decide_eq_false (by omega : a ≠ 2)]
  rcases (configWf_iff_configMeetsSpec.mp hwf).addressAuthFrom86 h86 with ⟨h0, h3, h5⟩ | ⟨h0, h3, h5⟩
  · exact ⟨_, h3, h5, .inl ⟨h0, rfl, hfunctions h3 h5 (.inl ⟨rfl, h0, rfl⟩)⟩⟩
  · exact ⟨_, h3, h5, .inr ⟨h0, rfl, hfunctions h3 h5 (.inr ⟨rfl, h0, rfl⟩)⟩⟩

end Sys2Proof.Machine
end

section
/-! The availability predicates of R33 beside the value tables of R14 to R29. -/

namespace Sys2Proof.Machine

/-! What a predicate looks at: one field or either of two, and a value of it. -/

/-- The fields of a predicate's condition in R33's second column. -/
def HavePredicate.fields : HavePredicate → List IdField
  | .LS64 => [.LS64]
  | .LS64_V => [.LS64]
  | .LS64_ACCDATA => [.LS64]
  | .XS => [.XS]
  | .I8MM => [.I8MM]
  | .DGH => [.DGH]
  | .BF16 => [.BF16]
  | .SPECRES => [.SPECRES]
  | .SB => [.SB]
  | .FRINTTS => [.FRINTTS]
  | .GenericAuth => [.GPI, .GPA]
  | .LRCPC => [.LRCPC]
  | .LRCPC2 => [.LRCPC]
  | .FCMA => [.FCMA]
  | .JSCVT => [.JSCVT]
  | .AddressAuth => [.API, .APA]
  | .DPB => [.DPB]
  | .DPB2 => [.DPB]

/-- The condition on the value of such a field. -/
def HavePredicate.trueAt (n : Nat) : HavePredicate → Bool
  | .LS64 => [1, 2, 3].contains n
  | .LS64_V => [2, 3].contains n
  | .LS64_ACCDATA => n == 3
  | .LRCPC => [1, 2].contains n
  | .LRCPC2 => n == 2
  | .AddressAuth => n != 0
  | .DPB => [1, 2].contains n
  | .DPB2 => n == 2
  | _ => n == 1

theorem HavePredicate.holds_iff {V : Word} {p : HavePredicate} :
    p.holds V = true ↔ ∃ f ∈ p.fields, p.trueAt (idFieldNat V f) = true := by
  cases p <;> simp [HavePredicate.holds, HavePredicate.fields, HavePredicate.trueAt]

theorem HavePredicate.mem_all (p : HavePredicate) : p ∈ HavePredicate.all := by cases p <;> decide

theorem reports_iff {V : Word} {r : Reported} :
    reports V r = true ↔ ∃ f, r ∈ rowReports f (idFieldNat V f) := by
  simp [reports, IdField.mem_all]

/-! Row by row. -/

/-- What the predicates true at value n of field f name between them. -/
def itemsAt (f : IdField) (n : Nat) : List Reported :=
  (HavePredicate.all.filter fun p => f ∈ p.fields ∧ p.trueAt n = true).flatMap HavePredicate.items

theorem mem_itemsAt {f : IdField} {n : Nat} {r : Reported} :
    r ∈ itemsAt f n ↔ ∃ p : HavePredicate, (f ∈ p.fields ∧ p.trueAt n = true) ∧ r ∈ p.items := by
  simp [itemsAt, HavePredicate.mem_all]

/-- Each row of a value table, at a defined value, reports what the predicates true there name. -/
theorem rowReports_agrees : ∀ f ∈ IdField.all, ∀ n ∈ definedValues f,
    rowReports f n ⊆ itemsAt f n ∧ itemsAt f n ⊆ rowReports f n := by
  decide

/-- On a well-formed V an item is reported exactly when a true predicate names it. -/
theorem reports_iff_holds {c : PEConfig} (hwf : configWf c = true) {r : Reported} :
    reports c.V r = true ↔ ∃ p : HavePredicate, r ∈ p.items ∧ p.holds c.V = true := by
  have hrow : ∀ f, r ∈ rowReports f (idFieldNat c.V f) ↔ r ∈ itemsAt f (idFieldNat c.V f) := by
    intro f
    obtain ⟨hsub, hsup⟩ := rowReports_agrees f f.mem_all _ (idField_defined hwf f)
    exact ⟨fun h => hsub h, fun h => hsup h⟩
  simp only [reports_iff, hrow, mem_itemsAt, HavePredicate.holds_iff]
  constructor
  · rintro ⟨f, p, ⟨hf, hn⟩, hr⟩
    exact ⟨p, hr, f, hf, hn⟩
  · rintro ⟨p, hr, f, hf, hn⟩
    exact ⟨f, p, ⟨hf, hn⟩, hr⟩

/-- Every predicate names an item that no other one names. -/
theorem HavePredicate.exists_own_item (p : HavePredicate) :
    ∃ r ∈ p.items, ∀ q : HavePredicate, r ∈ q.items → q = p := by
  have h : ∀ p ∈ HavePredicate.all, ∃ r ∈ p.items, ∀ q ∈ HavePredicate.all, r ∈ q.items → q = p := by
    decide
  obtain ⟨r, hr, hown⟩ := h p p.mem_all
  exact ⟨r, hr, fun q => hown q q.mem_all⟩

/-- Settles O22. When all a predicate's items are reported, its own item is, and only it can have named
that. -/
theorem predicatesReportWhatTheValueTablesSay : Obligations.PredicatesReportWhatTheValueTablesSay := by
  refine fun c hwf => ⟨fun p => ⟨fun hp r hr => (reports_iff_holds hwf).mpr ⟨p, hr, hp⟩, fun h => ?_⟩,
    fun r => reports_iff_holds hwf⟩
  obtain ⟨r, hr, hown⟩ := p.exists_own_item
  obtain ⟨q, hrq, hq⟩ := (reports_iff_holds hwf).mp (h r hr)
  rwa [← hown q hrq]

end Sys2Proof.Machine
end

section
/-! The census of R92: counting the 64 assignments by the access rule is counting them by the table. -/

namespace Sys2Proof.Machine

theorem TableOutcome.on_inj {v : Word} {o o' : TableOutcome} : o.on v = o'.on v ↔ o = o' := by
  cases o <;> cases o' <;> simp [TableOutcome.on]

/-- The access rule has an outcome exactly where the matching rows of R92 are one row with it. -/
theorem accessOn_eq_on_iff {v : Word} {i : AccessInputs} {o : TableOutcome} :
    accessOn v i = o.on v ↔ (accessTable.filter (rowMatches i)).map AccessRow.outcome = [o] := by
  have htable := accessRuleIsTheDecisionTable v i
  have hsplit : (accessTable.filter (rowMatches i)).map (fun r => r.outcome.on v) =
      ((accessTable.filter (rowMatches i)).map AccessRow.outcome).map (TableOutcome.on v) := by
    rw [List.map_map]; rfl
  rw [hsplit] at htable
  obtain ⟨o', ho', hon⟩ := List.map_eq_singleton_iff.mp htable
  rw [ho', ← hon, TableOutcome.on_inj, List.singleton_inj, eq_comm]

/-- The number of assignments at a level whose row of R92 has a given outcome. -/
def tableCensus (el : EL) (o : TableOutcome) : Nat :=
  (allAccessInputs.filter fun i =>
    i.el = el ∧ (accessTable.filter (rowMatches i)).map AccessRow.outcome = [o]).length

/-- Counting by the access rule is counting by the table, whatever V is. -/
theorem census_eq_tableCensus (v : Word) (el : EL) (o : TableOutcome) :
    (allAccessInputs.filter fun i => i.el = el ∧ accessOn v i = o.on v).length = tableCensus el o := by
  simp only [accessOn_eq_on_iff, tableCensus]

/-- Settles O15. -/
theorem accessCensusOfAllInputs : Obligations.AccessCensusOfAllInputs := fun v =>
  ⟨rfl,
   (census_eq_tableCensus v .el0 .undefinedOutcome).trans (by decide),
   (census_eq_tableCensus v .el0 (.trap .el1)).trans (by decide),
   (census_eq_tableCensus v .el0 (.trap .el2)).trans (by decide),
   (census_eq_tableCensus v .el1 .returnV).trans (by decide),
   (census_eq_tableCensus v .el1 (.trap .el2)).trans (by decide),
   (census_eq_tableCensus v .el2 .returnV).trans (by decide),
   (census_eq_tableCensus v .el3 .returnV).trans (by decide)⟩

end Sys2Proof.Machine
end
